-- ==== Sys2Proof/Word.lean ====
section
/-!
DEFINITION. The word types of F32DEC: binary32 patterns and the two field triples that its units exchange.
-/

namespace Sys2Proof

/-- A 32-bit pattern read as IEEE-754 binary32 (spec/00_scope.md R18). -/
abbrev F32 := BitVec 32

/-- RawFields, format RAW (spec/10_state.md R22, spec/30_encoding.md R61): what the Field Extractor gives. -/
structure RawFields where
  sign : BitVec 1
  exponent : BitVec 8
  mantissa : BitVec 23
  deriving DecidableEq, Repr

/-- DecodedFields, format DEC (spec/10_state.md R23, spec/30_encoding.md R62): three binary32 patterns. -/
structure DecodedFields where
  signValue : F32
  exponentValue : F32
  mantissaValue : F32
  deriving DecidableEq, Repr

end Sys2Proof
end

