-- ==== Sys2Proof/Config.lean ====
section
/-!
DEFINITION. What is fixed for the hardware (spec/00_scope.md R12): its hardwired constants, the two open parameters,
the operand formats and the operation map of spec/30_encoding.md R67.
-/

namespace Sys2Proof

/-- The operand formats of spec/30_encoding.md R60 to R62. -/
inductive Format where
  | w32 | s1 | e8 | m23 | raw | dec
  deriving DecidableEq, Repr

/-- The operation map (spec/30_encoding.md R67). An operation is selected by which output the host reads; no opcode bits and no
state select it, and every unit evaluates on every input (decision D12 of the spec). -/
inductive Op where
  | extract | decodeSign | decodeExponent | decodeMantissa | decode | recompose | decompose
  deriving DecidableEq, Repr

/-- The five units (spec/00_scope.md R4): Field Extractor, sign decoder, exponent decoder, mantissa accumulator, Recomposer. -/
inductive FunctionalUnit where
  | fx | sd | ed | ma | rm
  deriving DecidableEq, Repr

/-- The order of the four bytes of the float in a host's byte-addressed memory: `order lane` is the address offset of the byte
that lands on `x[8*lane+7 : 8*lane]`. The spec leaves HOST_BYTE_ORDER open and names no set of orders (spec/20_memory.md R42).
DESIGN CHOICE (log entry 12): the model takes every way to place the four whole bytes at four addresses, mixed orders
among them, and no layout that splits a byte. -/
abbrev ByteOrder := Equiv.Perm (Fin 4)

/-- `BIAS`: the constant subtracted from the stored exponent field. -/
abbrev Config.bias : Int := 127

/-- `RADIX`: the base of the exponent term. -/
abbrev Config.radix : Nat := 2

/-- `MANT_W` and `N_WEIGHTS`: 23 mantissa bits, each with its weight. -/
abbrev Config.mantissaWidth : Nat := 23

/-- `SIGN_POS`, the shift count of the sign field (spec/30_encoding.md R64). -/
abbrev Config.signShift : Nat := 31

/-- `EXP_LO`, the shift count of the exponent field (spec/30_encoding.md R64). -/
abbrev Config.exponentShift : Nat := 23

/-- `MANT_LO`, the shift count of the mantissa field (spec/30_encoding.md R64). -/
abbrev Config.mantissaShift : Nat := 0

/-- Mask of the sign field, one 1 (spec/30_encoding.md R64). -/
abbrev Config.signMask : BitVec 32 := 0x1#32

/-- Mask of the exponent field, eight 1s (spec/30_encoding.md R64). -/
abbrev Config.exponentMask : BitVec 32 := 0xFF#32

/-- Mask of the mantissa field, twenty-three 1s (spec/30_encoding.md R64). -/
abbrev Config.mantissaMask : BitVec 32 := 0x7FFFFF#32

/-- `ACC_INIT`: +1.0, the implicit leading one the accumulator starts from; also the decoded value of sign 0. -/
abbrev Config.plusOne : F32 := 0x3F800000#32

/-- -1.0, the decoded value of sign 1 (spec/40_numerics.md R93). -/
abbrev Config.minusOne : F32 := 0xBF800000#32

/-- `T_PD`: the settling time from `x` to the slowest output, open (spec/92_eei_decisions.md D18).
No rule and no definition of the model depends on it (log entry 12). -/
opaque Config.tPd : Nat

/-- `HOST_BYTE_ORDER`: open (spec/92_eei_decisions.md D15). Only the host's own byte assembly uses it (log entry 12). -/
opaque Config.hostByteOrder : ByteOrder

end Sys2Proof
end

