-- ==== Sys2Proof/Machine/Operands.lean ====
section
/-!
DEFINITION. Every operand form of the spec: how fields are cut from and joined into the 32-bit word (spec/30_encoding.md
R60, R61, R64), the 96-bit DEC operand word (R67), and the operand domain of the Recomposer (spec/43_recomposer.md R191).
-/

namespace Sys2Proof.Machine

/-- `sign <- (x >> 31) & 0x1` (spec/41_field_extractor.md R131). -/
def signOf (x : BitVec 32) : BitVec 1 :=
  ((x >>> Config.signShift) &&& Config.signMask).setWidth 1

/-- `exponent <- (x >> 23) & 0xFF` (spec/41_field_extractor.md R132). -/
def exponentOf (x : BitVec 32) : BitVec 8 :=
  ((x >>> Config.exponentShift) &&& Config.exponentMask).setWidth 8

/-- `mantissa <- x & 0x7FFFFF` (spec/41_field_extractor.md R133). -/
def mantissaOf (x : BitVec 32) : BitVec 23 :=
  ((x >>> Config.mantissaShift) &&& Config.mantissaMask).setWidth 23

/-- `{sign, exponent, mantissa}`: the W32 pattern of three fields (spec/30_encoding.md R61). -/
def joinFields (sign : BitVec 1) (exponent : BitVec 8) (mantissa : BitVec 23) : BitVec 32 :=
  sign ++ exponent ++ mantissa

/-- The 96-character DEC operand word of the operation map: signValue in bits 95..64, exponentValue in bits 63..32,
mantissaValue in bits 31..0 (spec/30_encoding.md R67). -/
def joinDecoded (signValue exponentValue mantissaValue : F32) : BitVec 96 :=
  signValue ++ exponentValue ++ mantissaValue

/-- `signValue` in `{0x3F800000, 0xBF800000}` (spec/43_recomposer.md R191). -/
def inSignValueDomain (v : F32) : Bool :=
  v == Config.plusOne || v == Config.minusOne

/-- `exponentValue` is `0x00400000` or `E << 23` with `E` in 1..255 (spec/43_recomposer.md R191). -/
def inExponentValueDomain (v : F32) : Bool :=
  v == 0x00400000#32 || (signOf v == 0#1 && exponentOf v != 0#8 && mantissaOf v == 0#23)

/-- `mantissaValue` in `0x3F800000..0x3FFFFFFF` (spec/43_recomposer.md R191). -/
def inMantissaValueDomain (v : F32) : Bool :=
  0x3F800000#32 ≤ v && v ≤ 0x3FFFFFFF#32

/-- The operand domain of the Recomposer: the triples its three driving units can produce (spec/43_recomposer.md R191). -/
def inRecomposeDomain (signValue exponentValue mantissaValue : F32) : Bool :=
  inSignValueDomain signValue && inExponentValueDomain exponentValue && inMantissaValueDomain mantissaValue

/-- `x` with its sign field replaced: the word that brings `sign` to the sign decoder and leaves the other fields as they are. -/
def withSign (x : BitVec 32) (sign : BitVec 1) : BitVec 32 :=
  joinFields sign (exponentOf x) (mantissaOf x)

/-- `x` with its exponent field replaced. -/
def withExponent (x : BitVec 32) (exponent : BitVec 8) : BitVec 32 :=
  joinFields (signOf x) exponent (mantissaOf x)

/-- `x` with its mantissa field replaced. -/
def withMantissa (x : BitVec 32) (mantissa : BitVec 23) : BitVec 32 :=
  joinFields (signOf x) (exponentOf x) mantissa

/-- The one word whose decoded values are a given DecodedFields triple: its sign, exponent and mantissa are read back from the
three patterns (spec/42_field_decoder.md R161). It is the host's choice of `x`; the block has no inverse path. -/
def wordOfDecoded (signValue exponentValue mantissaValue : F32) : BitVec 32 :=
  joinFields (signOf signValue) (exponentOf exponentValue) (mantissaOf mantissaValue)

/-- The input word a host assembles from the four bytes of a float in its memory, `bytes[0]` at the lowest address:
the byte that holds the sign lands on `x[31:24]` (spec/20_memory.md R42). The block itself never sees bytes. -/
def inputWordOfBytes (order : ByteOrder) (bytes : Vector (BitVec 8) 4) : BitVec 32 :=
  bytes[order 3] ++ bytes[order 2] ++ bytes[order 1] ++ bytes[order 0]

/-- The four bytes a host of the given byte order holds for the pattern `x` (spec/20_memory.md R42). -/
def bytesOfInputWord (order : ByteOrder) (x : BitVec 32) : Vector (BitVec 8) 4 :=
  Vector.ofFn fun address => x.extractLsb' (8 * (order.symm address).val) 8

end Sys2Proof.Machine
end

