-- ==== Sys2Proof/Machine/Numerics.lean ====
section
/-!
DEFINITION. The arithmetic of spec/40_numerics.md: the value of a binary32 pattern (R93), rounding (R94), the three
floating-point primitives (R95 to R97), IEEE equality (R101) and the integer primitives (R91, R105).
-/

namespace Sys2Proof.Machine

/-- The extended-real value of a binary32 pattern (spec/40_numerics.md R93). A finite value is `(-1)^neg * mant * 2^exp`
exactly; a zero is finite with `mant = 0` and keeps its sign. -/
inductive Val32 where
  | nan
  | inf (neg : Bool)
  | finite (neg : Bool) (mant : Nat) (exp : Int)
  deriving DecidableEq, Repr

/-- The classes of input pattern (spec/30_encoding.md R69). The block treats none of them specially. -/
inductive PatternClass where
  | zero | subnormal | normalized | infinity | nan
  deriving DecidableEq, Repr

/-- `val32(b)` (spec/40_numerics.md R93): normalized `(2^23 + M) * 2^(E-150)`, exponent field 0 `M * 2^-149`, exponent field
255 an infinity or a NaN. -/
def val32 (b : F32) : Val32 :=
  if exponentOf b = 255#8 then
    if mantissaOf b = 0#23 then .inf (signOf b == 1#1) else .nan
  else if exponentOf b = 0#8 then
    .finite (signOf b == 1#1) (mantissaOf b).toNat (-149)
  else
    .finite (signOf b == 1#1) (2 ^ 23 + (mantissaOf b).toNat) (((exponentOf b).toNat : Int) - 150)

/-- The class of a pattern by its exponent and mantissa fields (spec/30_encoding.md R69). -/
def patternClass (b : F32) : PatternClass :=
  if exponentOf b = 0#8 then (if mantissaOf b = 0#23 then .zero else .subnormal)
  else if exponentOf b = 255#8 then (if mantissaOf b = 0#23 then .infinity else .nan)
  else .normalized

/-- The magnitude `mant * 2^exp` as a rational number. -/
def magnitude (mant : Nat) (exp : Int) : ℚ := (mant : ℚ) * (2 : ℚ) ^ exp

/-- The rational number a value is, if it is finite. -/
def Val32.toRat? : Val32 → Option ℚ
  | .nan => none
  | .inf _ => none
  | .finite neg mant exp => some (if neg then -magnitude mant exp else magnitude mant exp)

/-- The pattern with sign bit `neg` and 31-bit magnitude `mag`. -/
def pack (neg : Bool) (mag : Nat) : F32 :=
  BitVec.ofBool neg ++ BitVec.ofNat 31 mag

/-- `e <- max(floor(log2(v)), -126)` for `v = mant * 2^exp` with `mant` not 0 (spec/40_numerics.md R94). -/
def binade (mant : Nat) (exp : Int) : Int :=
  max ((Nat.log2 mant : Int) + exp) (-126)

/-- The integer nearest `m / 2^sh`; exactly halfway, the even one (spec/40_numerics.md R94, the spec's decision D5). -/
def halfEven (m sh : Nat) : Nat :=
  let q := m / 2 ^ sh
  let r := m % 2 ^ sh
  if 2 * r < 2 ^ sh then q
  else if 2 ^ sh < 2 * r then q + 1
  else q + q % 2

/-- `n'`: the magnitude `mant * 2^exp` in units of the spacing `2^(e-23)` of its binade, rounded to an integer
(spec/40_numerics.md R94). -/
def roundedUnits (mant : Nat) (exp : Int) : Nat :=
  let d := exp - (binade mant exp - 23)
  if 0 ≤ d then mant * 2 ^ d.toNat else halfEven mant (-d).toNat

/-- `mag <- (e + 126) * 2^23 + n'`, before the overflow test (spec/40_numerics.md R94). -/
def roundedMagnitude (mant : Nat) (exp : Int) : Nat :=
  (binade mant exp + 126).toNat * 2 ^ 23 + roundedUnits mant exp

/-- The 31-bit magnitude of an infinity, which an overflowing magnitude becomes (spec/40_numerics.md R94, decision D6). -/
def infinityMagnitude : Nat := 0x7F800000

/-- `round32(s, v)` for the exact magnitude `v = mant * 2^exp` (spec/40_numerics.md R94): nearest, ties to even, gradual
underflow, overflow to infinity. Every magnitude the block rounds has this form (log entry 7). -/
def round32 (neg : Bool) (mant : Nat) (exp : Int) : F32 :=
  if mant = 0 then pack neg 0
  else pack neg (min (roundedMagnitude mant exp) infinityMagnitude)

/-- `pow2_32(k) = round32(0, 2^k)` (spec/40_numerics.md R95). -/
def pow2 (k : Int) : F32 := round32 false 1 k

/-- `mant * 2^exp` with its sign, as an integer number of units `2^unit`, for `unit ≤ exp`. -/
def signedUnits (neg : Bool) (mant : Nat) (exp unit : Int) : Int :=
  let n : Int := ((mant * 2 ^ (exp - unit).toNat : Nat) : Int)
  if neg then -n else n

/-- `fadd32(a, b)` (spec/40_numerics.md R96): the exact sum of two finite operands, rounded; a zero sum is +0 unless both
operands are -0. `none` for an infinite or NaN operand, which the spec leaves undefined (93_implementation_defined.md U4). -/
def fadd32 (a b : F32) : Option F32 :=
  match val32 a, val32 b with
  | .finite na ma ea, .finite nb mb eb =>
    let unit := min ea eb
    let t := signedUnits na ma ea unit + signedUnits nb mb eb unit
    if t = 0 then
      some (pack (na && nb && ma == 0 && mb == 0) 0)
    else
      some (round32 (t < 0) t.natAbs unit)
  | _, _ => none

/-- `fmul32(a, b)` (spec/40_numerics.md R97): sign the XOR of the signs; an infinite operand gives an infinity; otherwise the
exact product, rounded. `none` for a NaN operand and for zero times infinity (93_implementation_defined.md U4). -/
def fmul32 (a b : F32) : Option F32 :=
  match val32 a, val32 b with
  | .finite na ma ea, .finite nb mb eb => some (round32 (na ^^ nb) (ma * mb) (ea + eb))
  | .inf na, .inf nb => some (pack (na ^^ nb) infinityMagnitude)
  | .inf na, .finite nb mb _ => if mb = 0 then none else some (pack (na ^^ nb) infinityMagnitude)
  | .finite na ma _, .inf nb => if ma = 0 then none else some (pack (na ^^ nb) infinityMagnitude)
  | .nan, _ => none
  | _, .nan => none

/-- `eq32(a, b)`, IEEE equality (spec/40_numerics.md R101): the relation the round-trip properties are stated in. The block
does not compute it (spec/44_pipeline.md R217). -/
def eq32 (a b : F32) : Bool :=
  if patternClass a = .nan ∨ patternClass b = .nan then false
  else if patternClass a = .zero ∧ patternClass b = .zero then true
  else a == b

/-- Bias subtraction `k = exponent - 127` over the integers, the field read unsigned (spec/40_numerics.md R91). -/
def signedExponent (exponent : BitVec 8) : Int := (exponent.toNat : Int) - Config.bias

/-- Weight exponent `i - 23` (spec/40_numerics.md R92). -/
def weightExponent (i : Nat) : Int := (i : Int) - Config.mantissaWidth

/-- `w(i) = pow2_32(i - 23)`: the constant that mantissa bit `i` gates (spec/40_numerics.md R102, spec/42_field_decoder.md
R156). -/
def weight (i : Nat) : F32 := pow2 (weightExponent i)

/-- Bit test: bit `i` of the mantissa is set (spec/40_numerics.md R105). -/
def mantissaBit (mantissa : BitVec 23) (i : Nat) : Bool := mantissa.getLsbD i

end Sys2Proof.Machine
end

