-- ==== Sys2Proof/Syntax.lean ====
section
/-!
DEFINITION. The operations of F32DEC, one constructor for each row of spec/opcode_table.json, with the row's operands.
-/

namespace Sys2Proof

/-- The seven operations of spec/30_encoding.md R67, each with its operands. -/
inductive Instr where
  /-- Row `extract` (unit FX): operand `x`, format W32. -/
  | extract (x : BitVec 32)
  /-- Row `decode.sign` (unit SD): operand `sign`, format S1. -/
  | decodeSign (sign : BitVec 1)
  /-- Row `decode.exponent` (unit ED): operand `exponent`, format E8. -/
  | decodeExponent (exponent : BitVec 8)
  /-- Row `decode.mantissa` (unit MA): operand `mantissa`, format M23. -/
  | decodeMantissa (mantissa : BitVec 23)
  /-- Row `decode` (units SD, ED and MA): a RawFields triple, format RAW. -/
  | decode (sign : BitVec 1) (exponent : BitVec 8) (mantissa : BitVec 23)
  /-- Row `recompose` (unit RM): a DecodedFields triple, format DEC. -/
  | recompose (signValue : F32) (exponentValue : F32) (mantissaValue : F32)
  /-- Row `decompose` (the whole block): operand `x`, format W32. -/
  | decompose (x : BitVec 32)
  deriving DecidableEq, Repr

end Sys2Proof
end

