-- ==== Sys2Proof/WellFormed.lean ====
section
/-!
DEFINITION. Which operations are well formed: every operand of the right width is valid (spec/30_encoding.md R68), but for
`recompose`, whose operands must lie in the domain of spec/43_recomposer.md R191.
-/

namespace Sys2Proof

/-- The operation's operands are ones the hardware can have on that operation's inputs. -/
def Instr.wellFormed : Instr → Bool
  | .extract _ => true
  | .decodeSign _ => true
  | .decodeExponent _ => true
  | .decodeMantissa _ => true
  | .decode _ _ _ => true
  | .recompose sv ev mv => Machine.inRecomposeDomain sv ev mv
  | .decompose _ => true

end Sys2Proof
end

