-- ==== Sys2Proof/Decode.lean ====
section
/-!
DEFINITION. The decoder, from an operation and its operand word to an instruction, and the encoder, the operand word of an
instruction (spec/30_encoding.md R67 and spec/opcode_table.json).
-/

namespace Sys2Proof

/-- Why an operand word is no operand of an operation. -/
inductive Reject where
  /-- The word has not the one width the operation's format has (spec/30_encoding.md R70). -/
  | wrongWidth (op : Op) (nbits : Nat)
  /-- The number has a bit set above its width. -/
  | valueTooWide (op : Op) (w : Nat)
  deriving DecidableEq, Repr

/-- The operand format of each operation (spec/30_encoding.md R67, column "operand format"). -/
def Op.format : Op → Format
  | .extract => .w32
  | .decodeSign => .s1
  | .decodeExponent => .e8
  | .decodeMantissa => .m23
  | .decode => .raw
  | .recompose => .dec
  | .decompose => .w32

/-- The width of each format (spec/30_encoding.md R60 to R62, R67). -/
def Format.width : Format → Nat
  | .w32 => 32
  | .s1 => 1
  | .e8 => 8
  | .m23 => 23
  | .raw => 32
  | .dec => 96

/-- The width of an operation's operand word: 32, 1, 8, 23, 32, 96, 32 (spec/30_encoding.md R67). -/
def Op.width (op : Op) : Nat := op.format.width

/-- The operation an instruction is. -/
def Instr.op : Instr → Op
  | .extract _ => .extract
  | .decodeSign _ => .decodeSign
  | .decodeExponent _ => .decodeExponent
  | .decodeMantissa _ => .decodeMantissa
  | .decode _ _ _ => .decode
  | .recompose _ _ _ => .recompose
  | .decompose _ => .decompose

/-- The instruction whose operand word has the bits `w`, already known to fit the operation's width. The field positions are
those of the operation's row in spec/opcode_table.json. -/
def operandsOfWord (op : Op) (w : Nat) : Instr :=
  match op with
  | .extract => .extract (BitVec.ofNat 32 w)
  | .decodeSign => .decodeSign (BitVec.ofNat 1 w)
  | .decodeExponent => .decodeExponent (BitVec.ofNat 8 w)
  | .decodeMantissa => .decodeMantissa (BitVec.ofNat 23 w)
  | .decode => .decode (BitVec.ofNat 1 (w >>> 31)) (BitVec.ofNat 8 (w >>> 23)) (BitVec.ofNat 23 w)
  | .recompose => .recompose (BitVec.ofNat 32 (w >>> 64)) (BitVec.ofNat 32 (w >>> 32)) (BitVec.ofNat 32 w)
  | .decompose => .decompose (BitVec.ofNat 32 w)

/-- Decode an operand word of `nbits` bits presented to the operation `op`. Total: a word of another width, or a number that
does not fit its width, is rejected by name; every other word is an instruction (spec/30_encoding.md R68). -/
def decodeWord (op : Op) (nbits w : Nat) : Except Reject Instr :=
  if nbits ≠ op.width then .error (.wrongWidth op nbits)
  else if 2 ^ nbits ≤ w then .error (.valueTooWide op w)
  else .ok (operandsOfWord op w)

/-- The operand word of an instruction, as a number with bit 0 least significant (spec/30_encoding.md R67). -/
def encodeWord : Instr → Nat
  | .extract x => x.toNat
  | .decodeSign sign => sign.toNat
  | .decodeExponent exponent => exponent.toNat
  | .decodeMantissa mantissa => mantissa.toNat
  | .decode sign exponent mantissa => (Machine.joinFields sign exponent mantissa).toNat
  | .recompose sv ev mv => (Machine.joinDecoded sv ev mv).toNat
  | .decompose x => x.toNat

/-- DESIGN CHOICE (log entry 4): which operation a bare operand word stands for, by its width alone, since no row of the table
has a fixed bit. 32 bits are `decompose`, what the block computes for any `x` (spec/44_pipeline.md R210); 24 bits are the
23-bit operand in whole bytes; 8 bits are the exponent operand, whose width is exactly 8. -/
def opOfWidth (nbits : Nat) : Option Op :=
  match nbits with
  | 1 => some .decodeSign
  | 8 => some .decodeExponent
  | 23 => some .decodeMantissa
  | 24 => some .decodeMantissa
  | 32 => some .decompose
  | 96 => some .recompose
  | _ => none

/-- The instruction read from an opcode-table word of `nbits` bits, bit 0 least significant. -/
def decodeTableWord (nbits w : Nat) : Option Instr :=
  match opOfWidth nbits with
  | none => none
  | some op =>
    match decodeWord op op.width w with
    | .ok i => some i
    | .error _ => none

end Sys2Proof
end

