-- ==== Sys2Proof/Machine/State.lean ====
section
/-!
DEFINITION. The state of the machine: the record of every signal of spec/10_state.md R21. The block keeps nothing from one
evaluation to the next (R20); every evaluation drives every signal from the present `x`, and the record is the observation of the
last one that R34 allows (log entry 1).
-/

namespace Sys2Proof.Machine

/-- Every signal of spec/10_state.md R21, and nothing else. Plain data. -/
structure State where
  /-- Input port: the 32-bit pattern the host drives. -/
  x : BitVec 32
  /-- FX output, RawFields.sign. -/
  sign : BitVec 1
  /-- FX output, RawFields.exponent, the stored biased field. -/
  exponent : BitVec 8
  /-- FX output, RawFields.mantissa, without its implicit leading one. -/
  mantissa : BitVec 23
  /-- ED internal: the signed exponent `exponent - 127`, a mathematical integer (decision D14). -/
  k : Int
  /-- MA internal: the accumulator chain `acc_0` .. `acc_23`, wires and not a register (R29). -/
  acc : Vector F32 24
  /-- SD output, DecodedFields.signValue. -/
  signValue : F32
  /-- ED output, DecodedFields.exponentValue. -/
  exponentValue : F32
  /-- MA output, DecodedFields.mantissaValue (= `acc_23`). -/
  mantissaValue : F32
  /-- RM internal: the first product `signValue x exponentValue`. -/
  p : F32
  /-- RM output, RecomposedValue. -/
  recomposed : F32
  deriving DecidableEq, Repr

/-- What the host reads when it selects an operation: the column "result" of spec/30_encoding.md R67. -/
inductive Reading where
  | rawFields (raw : RawFields)
  | signValue (v : F32)
  | exponentValue (v : F32)
  | mantissaValue (v : F32)
  | decodedFields (decoded : DecodedFields)
  | recomposed (v : F32)
  | allOutputs (raw : RawFields) (decoded : DecodedFields) (recomposed : F32)
  deriving DecidableEq, Repr

/-- The faults of the machine: none. "The block raises no synchronous exception, from any operation, on any input"
(spec/60_exceptions.md R240). Nothing raises one; that the type is empty is safe, because it says of the model what R240
says of the block (log entry 15). -/
inductive Fault where
  deriving DecidableEq, Repr

/-- Why an operation has no meaning. -/
inductive Refusal where
  /-- Raised by an arm of `exec` whose instruction has no meaning yet; no arm raises it. Safe: the machine stops. -/
  | notModelled (mnemonic : String)
  /-- Raised by `recompose` for operands outside the domain of spec/43_recomposer.md R191, which no unit of the hardware
  can drive and which the spec says a model should refuse (log entry 6). Safe: the machine stops. -/
  | recomposeOperandOutsideDomain
  /-- Raised by the evaluation of a unit whose floating-point primitive is undefined on its operands: in MA `fadd32` on an
  infinite or NaN operand, in RM `fmul32` on a NaN or on zero times infinity (spec/93_implementation_defined.md U4). No operation
  reaches it, because no unit can drive such an operand (spec/40_numerics.md R96, R97, R99). Safe: the machine stops. -/
  | primitiveUndefined (unit : FunctionalUnit)
  deriving DecidableEq, Repr

/-- The machine after reset. The block has no reset; every signal is the function of the present `x` that its rule defines
(spec/10_state.md R32, spec/70_reset_and_hazards.md R270). DESIGN CHOICE: the host drives `x = 0` (log entry 3). The other
values are R32's for that `x`, vector X3 of spec/95_test_vectors.md. -/
def State.reset : State where
  x := 0x00000000#32
  sign := 0#1
  exponent := 0x00#8
  mantissa := 0x000000#23
  k := -127
  acc := Vector.replicate 24 0x3F800000#32
  signValue := 0x3F800000#32
  exponentValue := 0x00400000#32
  mantissaValue := 0x3F800000#32
  p := 0x00400000#32
  recomposed := 0x00400000#32

end Sys2Proof.Machine
end

