-- ==== Sys2Proof/Machine/Ops.lean ====
section
/-!
DEFINITION. The shared operations of the five units as pure functions, the one operation by which each unit drives its
signals, the evaluation of all units on an input word, and the host's access to the ports. The block takes no exception and returns from none (spec/60_exceptions.md
R240, R244, R245), so there is no operation for that.
-/

namespace Sys2Proof.Machine

/-- Unit FX (spec/41_field_extractor.md R130): the three fields of `x`. -/
def extractFields (x : BitVec 32) : RawFields where
  sign := signOf x
  exponent := exponentOf x
  mantissa := mantissaOf x

/-- Unit SD (spec/42_field_decoder.md R151): a two-way multiplexer between +1.0 and -1.0. -/
def signDecoder (sign : BitVec 1) : F32 :=
  if sign = 0#1 then Config.plusOne else Config.minusOne

/-- Unit ED (spec/42_field_decoder.md R152): `pow2_32(exponent - 127)`, the same formula for all 256 field values (R154). -/
def exponentDecoder (exponent : BitVec 8) : F32 := pow2 (signedExponent exponent)

/-- Stage `i` of unit MA (spec/42_field_decoder.md R155): add `w(i)` if mantissa bit `i` is set, else pass. -/
def accumulatorStage (mantissa : BitVec 23) (acc : F32) (i : Nat) : Option F32 :=
  if mantissaBit mantissa i then fadd32 acc (weight i) else some acc

/-- The wires `acc_0` .. `acc_n` of unit MA, in ascending bit order (spec/42_field_decoder.md R155). -/
def accumulatorWires (mantissa : BitVec 23) : (n : Nat) → Option (Vector F32 (n + 1))
  | 0 => some #v[Config.plusOne]
  | n + 1 =>
    match accumulatorWires mantissa n with
    | none => none
    | some wires =>
      match accumulatorStage mantissa wires.back n with
      | none => none
      | some next => some (wires.push next)

/-- Unit MA (spec/42_field_decoder.md R155): all 24 wires, `acc_0` .. `acc_23`. -/
def mantissaAccumulator (mantissa : BitVec 23) : Option (Vector F32 24) := accumulatorWires mantissa 23

/-- Accumulation over the mantissa bits in any given order, started from `acc`. The order is not observable
(spec/42_field_decoder.md R159); the hardware's is ascending. -/
def accumulateInOrder (mantissa : BitVec 23) (acc : F32) : List Nat → Option F32
  | [] => some acc
  | i :: rest =>
    match accumulatorStage mantissa acc i with
    | none => none
    | some next => accumulateInOrder mantissa next rest

/-- Unit RM (spec/43_recomposer.md R190): the first product `p` and `recomposed`, associated left to right. -/
def recomposeProducts (signValue exponentValue mantissaValue : F32) : Option (F32 × F32) :=
  match fmul32 signValue exponentValue with
  | none => none
  | some p =>
    match fmul32 p mantissaValue with
    | none => none
    | some r => some (p, r)

/-- The host drives `x` (spec/10_state.md R21). The other signals follow in the evaluation. -/
def State.driveInput (s : State) (x : BitVec 32) : State := { s with x := x }

/-- FX drives `sign`, `exponent`, `mantissa` and nothing else (spec/41_field_extractor.md R138). -/
def State.driveRaw (s : State) (r : RawFields) : State :=
  { s with sign := r.sign, exponent := r.exponent, mantissa := r.mantissa }

/-- SD drives `signValue` (spec/10_state.md R21). -/
def State.driveSignValue (s : State) (v : F32) : State := { s with signValue := v }

/-- ED drives `k` and `exponentValue` (spec/10_state.md R21). -/
def State.driveExponentValue (s : State) (k : Int) (v : F32) : State :=
  { s with k := k, exponentValue := v }

/-- MA drives `acc_0` .. `acc_23` and `mantissaValue <- acc_23` (spec/10_state.md R21, spec/42_field_decoder.md R155). -/
def State.driveAccumulator (s : State) (wires : Vector F32 24) : State :=
  { s with acc := wires, mantissaValue := wires[23] }

/-- RM drives `p` and `recomposed` (spec/10_state.md R21). -/
def State.driveProducts (s : State) (p r : F32) : State := { s with p := p, recomposed := r }

/-- One unit evaluates: it reads the signals of the column "read by" and drives those of the column "driven by" of
spec/10_state.md R21. `none` where a primitive is undefined on the unit's operands (spec/93_implementation_defined.md U4). -/
def State.evaluateUnit (s : State) : FunctionalUnit → Option State
  | .fx => some (s.driveRaw (extractFields s.x))
  | .sd => some (s.driveSignValue (signDecoder s.sign))
  | .ed => some (s.driveExponentValue (signedExponent s.exponent) (exponentDecoder s.exponent))
  | .ma => (mantissaAccumulator s.mantissa).map s.driveAccumulator
  | .rm => (recomposeProducts s.signValue s.exponentValue s.mantissaValue).map fun products =>
      s.driveProducts products.1 products.2

/-- Units evaluate one after the other; one whose primitive is undefined on its operands refuses by name. `State.evaluate` is this
in any order that the data dependences allow. -/
def evaluateUnits : List FunctionalUnit → State → Host.Outcome State Fault Refusal
  | [], s => .next s
  | unit :: rest, s =>
    match s.evaluateUnit unit with
    | some t => evaluateUnits rest t
    | none => .refused (.primitiveUndefined unit)

/-- One evaluation of the block on an input word: every unit evaluates on every input (spec/30_encoding.md R67), each on what the
units before it drive (spec/20_memory.md R47, spec/44_pipeline.md R210). Every signal becomes the function of that word that its
rule defines (spec/10_state.md R20, spec/70_reset_and_hazards.md R270). A unit whose primitive is undefined on its operands
would refuse; none ever does (spec/44_pipeline.md R210: total). -/
def State.evaluate (s : State) (x : BitVec 32) : Host.Outcome State Fault Refusal :=
  let raw := extractFields x
  match fmul32 (signDecoder raw.sign) (exponentDecoder raw.exponent) with
  | none => .refused (.primitiveUndefined .rm)
  | some p =>
    match mantissaAccumulator raw.mantissa with
    | none => .refused (.primitiveUndefined .ma)
    | some wires =>
      match fmul32 p wires[23] with
      | none => .refused (.primitiveUndefined .rm)
      | some r =>
        .next ((((((s.driveInput x).driveRaw raw).driveSignValue (signDecoder raw.sign)).driveExponentValue
          (signedExponent raw.exponent) (exponentDecoder raw.exponent)).driveAccumulator wires).driveProducts p r)

/-- What the host reads of an operation (spec/30_encoding.md R67, column "result"). -/
def State.read (s : State) : Op → Reading
  | .extract => .rawFields ⟨s.sign, s.exponent, s.mantissa⟩
  | .decodeSign => .signValue s.signValue
  | .decodeExponent => .exponentValue s.exponentValue
  | .decodeMantissa => .mantissaValue s.mantissaValue
  | .decode => .decodedFields ⟨s.signValue, s.exponentValue, s.mantissaValue⟩
  | .recompose => .recomposed s.recomposed
  | .decompose => .allOutputs ⟨s.sign, s.exponent, s.mantissa⟩ ⟨s.signValue, s.exponentValue, s.mantissaValue⟩ s.recomposed

/-- The operand word on an operation's inputs (spec/10_state.md R21, column "read by"; spec/30_encoding.md R67). -/
def State.operandWord (s : State) : Op → Nat
  | .extract => s.x.toNat
  | .decodeSign => s.sign.toNat
  | .decodeExponent => s.exponent.toNat
  | .decodeMantissa => s.mantissa.toNat
  | .decode => (joinFields s.sign s.exponent s.mantissa).toNat
  | .recompose => (joinDecoded s.signValue s.exponentValue s.mantissaValue).toNat
  | .decompose => s.x.toNat

/-- The word the host drives so that an operation's operands stand on its inputs. The inputs of SD, ED, MA and RM are internal
wires (spec/92_eei_decisions.md D20), so only a word on `x` can bring operands to them: the word that carries them in its fields.
DESIGN CHOICE (log entry 5): the fields of `x` that an operand does not fix stay as they are. -/
def State.inputWord (s : State) : Instr → BitVec 32
  | .extract x => x
  | .decodeSign sign => withSign s.x sign
  | .decodeExponent exponent => withExponent s.x exponent
  | .decodeMantissa mantissa => withMantissa s.x mantissa
  | .decode sign exponent mantissa => joinFields sign exponent mantissa
  | .recompose sv ev mv => wordOfDecoded sv ev mv
  | .decompose x => x

/-- The host presents an operation's operands: it drives the word that carries them, and the next step evaluates it
(spec/70_reset_and_hazards.md R272). No word carries operands that are not well formed, so then nothing is driven. -/
def State.present (s : State) (i : Instr) : State :=
  if i.wellFormed then s.driveInput (s.inputWord i) else s

/-- The host drives `x` with a float it holds as four bytes in its own byte order (spec/20_memory.md R42,
spec/70_reset_and_hazards.md R272). -/
def State.presentBytes (s : State) (bytes : Vector (BitVec 8) 4) : State :=
  s.present (.decompose (inputWordOfBytes Config.hostByteOrder bytes))

end Sys2Proof.Machine
end

