-- ==== Sys2Proof/Machine/FieldDecoder.lean ====
section
/-!
DEFINITION. The Field Decoder family: `decode.sign`, `decode.exponent`, `decode.mantissa` and their composite `decode`
(spec/42_field_decoder.md). Each is evaluated on the word that carries its operand, with every unit of the block
(spec/30_encoding.md R67; log entry 5).
-/

namespace Sys2Proof.Machine

/-- `decode.sign(sign)` (spec/42_field_decoder.md R151): SD reads `sign`, bit 31 of the word. -/
def execDecodeSign (sign : BitVec 1) (s : State) : Host.Outcome State Fault Refusal :=
  s.evaluate (withSign s.x sign)

/-- `decode.exponent(exponent)` (spec/42_field_decoder.md R152, R154): ED reads `exponent`, bits 30..23 of the word. -/
def execDecodeExponent (exponent : BitVec 8) (s : State) : Host.Outcome State Fault Refusal :=
  s.evaluate (withExponent s.x exponent)

/-- `decode.mantissa(mantissa)` (spec/42_field_decoder.md R155): MA reads `mantissa`, bits 22..0 of the word. -/
def execDecodeMantissa (mantissa : BitVec 23) (s : State) : Host.Outcome State Fault Refusal :=
  s.evaluate (withMantissa s.x mantissa)

/-- `decode(sign, exponent, mantissa)` (spec/42_field_decoder.md R150): the triple is the whole word (spec/30_encoding.md R67). -/
def execDecode (sign : BitVec 1) (exponent : BitVec 8) (mantissa : BitVec 23) (s : State) :
    Host.Outcome State Fault Refusal :=
  s.evaluate (joinFields sign exponent mantissa)

end Sys2Proof.Machine
end

