-- ==== Sys2Proof/Machine/FieldExtractor.lean ====
section
/-!
DEFINITION. The Field Extractor family: `extract` (spec/41_field_extractor.md).
-/

namespace Sys2Proof.Machine

/-- `extract(x)` (spec/41_field_extractor.md R130): total (R134). FX reads `x` and drives `sign`, `exponent` and `mantissa` (R138);
the other units evaluate on what it drives, as they do on every input (spec/30_encoding.md R67). -/
def execExtract (x : BitVec 32) (s : State) : Host.Outcome State Fault Refusal :=
  s.evaluate x

end Sys2Proof.Machine
end

