-- ==== Sys2Proof/Machine/Pipeline.lean ====
section
/-!
DEFINITION. The whole pipeline: `decompose` (spec/44_pipeline.md).
-/

namespace Sys2Proof.Machine

/-- `decompose(x)` (spec/44_pipeline.md R210): `recompose(decode(extract(x)))`, with every intermediate signal driven too. It is
what the block computes always, for whatever `x` is present. -/
def execDecompose (x : BitVec 32) (s : State) : Host.Outcome State Fault Refusal :=
  s.evaluate x

end Sys2Proof.Machine
end

