-- ==== Sys2Proof/Machine/Recomposer.lean ====
section
/-!
DEFINITION. The Recomposer family: `recompose` (spec/43_recomposer.md).
-/

namespace Sys2Proof.Machine

/-- `recompose(signValue, exponentValue, mantissaValue)` (spec/43_recomposer.md R190). In the domain of R191 exactly one word
brings these three values to RM's inputs, and the block is evaluated on it. Operands outside the domain stand on RM's inputs for
no word; they are refused (log entry 6). -/
def execRecompose (signValue exponentValue mantissaValue : F32) (s : State) : Host.Outcome State Fault Refusal :=
  if inRecomposeDomain signValue exponentValue mantissaValue then
    s.evaluate (wordOfDecoded signValue exponentValue mantissaValue)
  else .refused .recomposeOperandOutsideDomain

end Sys2Proof.Machine
end

