-- ==== Sys2Proof/Machine/Dispatch.lean ====
section
/-!
DEFINITION. One arm per operation of spec/30_encoding.md R67.
-/

namespace Sys2Proof.Machine

def exec (i : Instr) (s : State) : Host.Outcome State Fault Refusal :=
  match i with
  | .extract x => Sys2Proof.Machine.execExtract x s
  | .decodeSign sign => Sys2Proof.Machine.execDecodeSign sign s
  | .decodeExponent exponent => Sys2Proof.Machine.execDecodeExponent exponent s
  | .decodeMantissa mantissa => Sys2Proof.Machine.execDecodeMantissa mantissa s
  | .decode sign exponent mantissa => Sys2Proof.Machine.execDecode sign exponent mantissa s
  | .recompose signValue exponentValue mantissaValue => Sys2Proof.Machine.execRecompose signValue exponentValue mantissaValue s
  | .decompose x => Sys2Proof.Machine.execDecompose x s

end Sys2Proof.Machine
end

