-- ==== Sys2Proof/Machine/Step.lean ====
section
/-!
DEFINITION. One step: one evaluation of `decompose` on the present `x` (spec/00_scope.md R13, spec/10_state.md R26). There is no
program counter, nothing is fetched and nothing advances.
-/

namespace Sys2Proof.Machine

/-- `state' = decompose(x)` (spec/10_state.md R26). -/
def step (s : State) : Host.Outcome State Fault Refusal :=
  exec (.decompose s.x) s

/-- `s` with the operands of an opcode-table word presented, so that the next step evaluates its operation. A word that is no
operand word, or whose operands no word on `x` carries, leaves `s` as it is. -/
def State.withFetchWord (s : State) (nbits w : Nat) : State :=
  match decodeTableWord nbits w with
  | some i => s.present i
  | none => s

end Sys2Proof.Machine
end

