-- ==== Sys2Proof/Machine/Flags.lean ====
section
/-!
DEFINITION. The block has no flag and no status output (spec/10_state.md R27). The IEEE exception conditions that arise inside
it are recorded nowhere (spec/40_numerics.md R100); they are computed here beside the machine, so that R100 can be stated.
No meaning reads this file.
-/

namespace Sys2Proof.Machine

/-- The five IEEE-754 exception conditions (spec/10_state.md R27). -/
structure Conditions where
  invalid : Bool
  divisionByZero : Bool
  overflow : Bool
  underflow : Bool
  inexact : Bool
  deriving DecidableEq, Repr

/-- No condition arises. -/
def Conditions.none : Conditions := ⟨false, false, false, false, false⟩

/-- The conditions that arise in either of two operations. -/
def Conditions.or (a b : Conditions) : Conditions where
  invalid := a.invalid || b.invalid
  divisionByZero := a.divisionByZero || b.divisionByZero
  overflow := a.overflow || b.overflow
  underflow := a.underflow || b.underflow
  inexact := a.inexact || b.inexact

/-- The magnitude `mant * 2^exp` is a whole number of its binade's units, so that rounding it changes nothing. -/
def isExact (mant : Nat) (exp : Int) : Bool :=
  let d := exp - (binade mant exp - 23)
  decide (0 ≤ d) || mant % 2 ^ (-d).toNat == 0

/-- The conditions of rounding the magnitude `mant * 2^exp`: overflow if it becomes an infinity, inexact if the result is not
the exact value, underflow if it is inexact and lies below 2^-126 before rounding (spec/40_numerics.md R100; log entry 13). -/
def roundConditions (mant : Nat) (exp : Int) : Conditions :=
  if mant = 0 then Conditions.none
  else
    let overflow := decide (infinityMagnitude ≤ roundedMagnitude mant exp)
    let inexact := overflow || !isExact mant exp
    { Conditions.none with
      overflow := overflow
      inexact := inexact
      underflow := inexact && decide ((Nat.log2 mant : Int) + exp < -126) }

/-- The conditions of `pow2_32(k)`. -/
def pow2Conditions (k : Int) : Conditions := roundConditions 1 k

/-- The conditions of `fadd32(a, b)` on finite operands. -/
def fadd32Conditions (a b : F32) : Conditions :=
  match val32 a, val32 b with
  | .finite na ma ea, .finite nb mb eb =>
    roundConditions (signedUnits na ma ea (min ea eb) + signedUnits nb mb eb (min ea eb)).natAbs (min ea eb)
  | _, _ => Conditions.none

/-- The conditions of `fmul32(a, b)` on the operands for which it is defined; an infinite result of an infinite operand is
exact. -/
def fmul32Conditions (a b : F32) : Conditions :=
  match val32 a, val32 b with
  | .finite _ ma ea, .finite _ mb eb => roundConditions (ma * mb) (ea + eb)
  | _, _ => Conditions.none

/-- The conditions of stages 0 to `n - 1` of unit MA. -/
def accumulatorConditions (mantissa : BitVec 23) (wires : Vector F32 24) : Nat → Conditions
  | 0 => Conditions.none
  | n + 1 =>
    (accumulatorConditions mantissa wires n).or
      (if mantissaBit mantissa n then fadd32Conditions (wires.getD n Config.plusOne) (weight n) else Conditions.none)

/-- The conditions that arose anywhere in the block in the evaluation whose signals `s` holds: in ED, in the 23 stages of MA
and in the two multiplications of RM. -/
def State.conditions (s : State) : Conditions :=
  (pow2Conditions s.k).or ((accumulatorConditions s.mantissa s.acc 23).or
    ((fmul32Conditions s.signValue s.exponentValue).or (fmul32Conditions s.p s.mantissaValue)))

end Sys2Proof.Machine
end

