-- ==== Sys2Proof/Safety.lean ====
section
/-!
DEFINITION. What counts as a safe run: the signals follow the input word and stay in the ranges the spec gives them.
-/

namespace Sys2Proof.Machine

/-- Every driven signal lies in the range the spec gives it: `signValue`, `exponentValue` and `mantissaValue` in the operand
domain of the Recomposer (spec/43_recomposer.md R191), `k` in -127..128 (spec/40_numerics.md R91), every accumulator wire in
[1, 2) (spec/40_numerics.md R98), `p` an exponent value with a sign, and `p` and `recomposed` neither a NaN nor a zero
(spec/40_numerics.md R99, spec/43_recomposer.md R193). -/
abbrev SignalsInRange (s : State) : Prop :=
  inRecomposeDomain s.signValue s.exponentValue s.mantissaValue = true ∧
  (-127 ≤ s.k ∧ s.k ≤ 128) ∧
  s.acc.toList.all inMantissaValueDomain = true ∧
  inExponentValueDomain (joinFields 0#1 (exponentOf s.p) (mantissaOf s.p)) = true ∧
  patternClass s.recomposed ≠ .nan ∧ patternClass s.recomposed ≠ .zero

/-- Evaluate operations one after the other, stopping at the first that does not complete. -/
def execAll : List Instr → State → Host.Outcome State Fault Refusal
  | [], s => .next s
  | i :: rest, s =>
    match exec i s with
    | .next t => execAll rest t
    | .fault r => .fault r
    | .refused r => .refused r

/-- The signals are the functions of the present `x` that their rules define: evaluating the block on `x` changes nothing
(spec/10_state.md R20, spec/70_reset_and_hazards.md R270). -/
abbrev Settled (s : State) : Prop := s.evaluate s.x = .next s

end Sys2Proof.Machine
end

