-- ==== Sys2Proof/Certificates/Slice0/Obligations.lean ====
section
/-!
DEFINITION. The statements about F32DEC that the provers settle, and the closed forms of spec/44_pipeline.md R211 that some of
them are stated in.
-/

open Sys2Proof Sys2Proof.Machine

/-! ### Closed forms (derived by the spec in R151, R153, R157, R193 and R211) -/

/-- `signValue = {S, 31'h3F800000}`. -/
def Sys2Proof.ClosedForm.signValue (S : BitVec 1) : F32 := S ++ 0x3F800000#31

/-- `exponentValue = (E = 0) ? 0x00400000 : {0, E, 23'b0}`. -/
def Sys2Proof.ClosedForm.exponentValue (E : BitVec 8) : F32 :=
  if E = 0#8 then 0x00400000#32 else 0#1 ++ E ++ 0#23

/-- `mantissaValue = {9'b001111111, M}`. -/
def Sys2Proof.ClosedForm.mantissaValue (M : BitVec 23) : F32 := 0b001111111#9 ++ M

/-- `acc_i`: the pattern `0x3F800000 | (M mod 2^i)`. -/
def Sys2Proof.ClosedForm.accumulator (M : BitVec 23) : Vector F32 24 :=
  Vector.ofFn fun i : Fin 24 => 0x3F800000#32 ||| BitVec.ofNat 32 (M.toNat % 2 ^ i.val)

/-- `p`: the exponent value with the sign copied into bit 31. -/
def Sys2Proof.ClosedForm.firstProduct (S : BitVec 1) (E : BitVec 8) : F32 :=
  S ++ (Sys2Proof.ClosedForm.exponentValue E).extractLsb' 0 31

/-- `recomposed`: for `E = 0`, with `N = {1, M}`, `{S, (N >> 1) + (N[0] & N[1])}`; for `E = 255` the infinity of sign `S`; else the
input pattern. -/
def Sys2Proof.ClosedForm.recomposed (S : BitVec 1) (E : BitVec 8) (M : BitVec 23) : F32 :=
  if E = 0#8 then
    let N : BitVec 24 := 1#1 ++ M
    S ++ ((N >>> 1).setWidth 31 + (N.extractLsb' 0 1 &&& N.extractLsb' 1 1).setWidth 31)
  else if E = 255#8 then S ++ 0xFF#8 ++ 0#23
  else S ++ E ++ M

/-- Every signal after an evaluation of the word with fields `(S, E, M)`. -/
def Sys2Proof.ClosedForm.block (S : BitVec 1) (E : BitVec 8) (M : BitVec 23) : State where
  x := S ++ E ++ M
  sign := S
  exponent := E
  mantissa := M
  k := (E.toNat : Int) - 127
  acc := Sys2Proof.ClosedForm.accumulator M
  signValue := Sys2Proof.ClosedForm.signValue S
  exponentValue := Sys2Proof.ClosedForm.exponentValue E
  mantissaValue := Sys2Proof.ClosedForm.mantissaValue M
  p := Sys2Proof.ClosedForm.firstProduct S E
  recomposed := Sys2Proof.ClosedForm.recomposed S E M

/-! ### The machine around the operations -/

/-- Where the input word decodes to `i`, as the operand word of any operation of its width, the step is `exec i` on that state:
nothing happens around it, for there is no program counter to move (spec/10_state.md section 3, spec/30_encoding.md section 3). -/
def Obligations.StepRunsTheDecodedOperation : Prop :=
  ∀ (s : State) (op : Op) (i : Instr), op.width = 32 → decodeWord op 32 s.x.toNat = .ok i → step s = exec i s

/-- The step is one total function of the input word, the same for every state, and it is `decompose` (spec/10_state.md R26). -/
def Obligations.StepIsOneTotalFunctionOfTheInput : Prop :=
  ∃ f : BitVec 32 → State, (∀ s : State, step s = .next (f s.x)) ∧
    ∀ (x : BitVec 32) (s : State), exec (.decompose x) s = .next (f x)

/-- Every unit evaluates on every input: a step is at once an evaluation of every one of the seven operations, on the operands
that stand on its inputs after it (spec/30_encoding.md section 3). That `exec` of `decode.sign`, `decode.exponent` or
`decode.mantissa` answers the step's state in every signal, not only in its own, rests on the model's choice that the other fields of
the word stay (log entry 5). -/
def Obligations.EveryOperationIsEvaluatedInEveryStep : Prop :=
  ∀ s t : State, step s = .next t → ∀ op : Op, ∃ i : Instr, decodeWord op op.width (t.operandWord op) = .ok i ∧
    exec i s = .next t ∧ exec i t = .next t

/-- An operation whose operands are presented is evaluated by the next step, presented by name or as a word of the opcode table
that carries well-formed operands (log entries 4 and 5), and presenting changes `x` only. -/
def Obligations.PresentedOperationIsRun : Prop :=
  (∀ (s : State) (i : Instr), i.wellFormed = true →
    step (s.present i) = exec i (s.present i) ∧ step (s.present i) = exec i s) ∧
  (∀ (s : State) (nbits w : Nat) (i : Instr), decodeTableWord nbits w = some i → i.wellFormed = true →
    step (s.withFetchWord nbits w) = exec i (s.withFetchWord nbits w) ∧ step (s.withFetchWord nbits w) = exec i s) ∧
  (∀ (s : State) (i : Instr), s.present i = { s with x := (s.present i).x })

/-- Decoding the operand word of an instruction gives the instruction, for every operand value. -/
def Obligations.DecodeOfEncodeIsTheInstruction : Prop :=
  ∀ i : Instr, decodeWord i.op i.op.width (encodeWord i) = .ok i

/-- A word that decodes has the operation's width, and encoding what it decodes to gives the word back. -/
def Obligations.EncodeOfDecodeIsTheWord : Prop :=
  ∀ (op : Op) (nbits w : Nat) (i : Instr), decodeWord op nbits w = .ok i →
    i.op = op ∧ nbits = op.width ∧ encodeWord i = w

/-- A word of a wrong width is rejected by name, and so is a number too large for its width; every other word is an
instruction of the operation (spec/30_encoding.md R68, R70). -/
def Obligations.OnlyMisfitWordsAreRejected : Prop :=
  (∀ (op : Op) (nbits w : Nat), nbits ≠ op.width → decodeWord op nbits w = .error (.wrongWidth op nbits)) ∧
  (∀ (op : Op) (w : Nat), 2 ^ op.width ≤ w → decodeWord op op.width w = .error (.valueTooWide op w)) ∧
  (∀ (op : Op) (w : Nat), w < 2 ^ op.width → ∃ i, decodeWord op op.width w = .ok i ∧ i.op = op)

/-- One operand word for each format of spec/30_encoding.md R60 to R62, R67, its fields at the table's positions. -/
def Obligations.FormatsHaveTheTablesFields : Prop :=
  decodeWord .extract 32 0b11000000000000000000000000000001 = .ok (.extract 0xC0000001#32) ∧
  decodeWord .decodeSign 1 0b1 = .ok (.decodeSign 1#1) ∧
  decodeWord .decodeExponent 8 0b10000100 = .ok (.decodeExponent 132#8) ∧
  decodeWord .decodeMantissa 23 0b10000000000000000000001 = .ok (.decodeMantissa 0x400001#23) ∧
  decodeWord .decode 32 0b11011110101011011011111011101111 = .ok (.decode 1#1 0xBD#8 0x2DBEEF#23) ∧
  decodeWord .recompose 96 0xBF800000400000003FC00000 = .ok (.recompose 0xBF800000#32 0x40000000#32 0x3FC00000#32) ∧
  decodeWord .decompose 32 0b00111111100000000000000000000000 = .ok (.decompose 0x3F800000#32)

/-- `State.reset` is what an evaluation of `decompose` on the present `x` leaves (spec/10_state.md R32), and it stays so. That
`x` is 0 there is the model's choice (log entry 3). -/
def Obligations.ResetIsTheEvaluationOfItsInput : Prop :=
  exec (.decompose State.reset.x) State.reset = .next State.reset ∧ step State.reset = .next State.reset ∧ Settled State.reset

/-- A host's byte order does not matter to the block: a float laid out in memory in any order of its bytes and assembled in the
same order is the pattern, and presenting it drives `x` with it and nothing else (spec/20_memory.md R42; log entry 12). -/
def Obligations.InputWordIsTheHostsFloat : Prop :=
  (∀ (order : ByteOrder) (x : BitVec 32), inputWordOfBytes order (bytesOfInputWord order x) = x) ∧
  (∀ (s : State) (x : BitVec 32), s.presentBytes (bytesOfInputWord Config.hostByteOrder x) = { s with x := x })

/-! ### The Field Extractor -/

/-- `extract(x)` completes in every state: `sign` is bit 31, `exponent` bits 30..23, `mantissa` bits 22..0 of `x`, each equal to the
shift-and-mask of spec/41_field_extractor.md R131, R132, R133. (The shift counts and masks are the spec's derivation from
the bit positions; both forms are stated.) -/
def Obligations.ExtractIsolatesTheThreeFields : Prop :=
  ∀ (x : BitVec 32) (s : State), ∃ t, exec (.extract x) s = .next t ∧ t.x = x ∧
    t.sign = x.extractLsb' 31 1 ∧ t.exponent = x.extractLsb' 23 8 ∧ t.mantissa = x.extractLsb' 0 23 ∧
    t.sign = ((x >>> 31) &&& 0x1#32).setWidth 1 ∧
    t.exponent = ((x >>> 23) &&& 0xFF#32).setWidth 8 ∧
    t.mantissa = (x &&& 0x7FFFFF#32).setWidth 23

/-- `extract` reads `x` and nothing else, and drives `sign`, `exponent`, `mantissa` and nothing else (spec/41_field_extractor.md
R138). Its unit FX changes these three signals only, from any two states with the same `x` to the same values, and they are
the values that `exec` of `extract` gives; every other signal is driven by the other units (`UnitsDriveOnlyTheirOwnSignals`). -/
def Obligations.ExtractReadsAndDrivesNothingElse : Prop :=
  ∀ (x : BitVec 32) (s s' : State), s.x = x → s'.x = x → ∃ f f' t,
    s.evaluateUnit .fx = some f ∧ s'.evaluateUnit .fx = some f' ∧ exec (.extract x) s = .next t ∧
    f = { s with sign := f.sign, exponent := f.exponent, mantissa := f.mantissa } ∧
    f.sign = f'.sign ∧ f.exponent = f'.exponent ∧ f.mantissa = f'.mantissa ∧
    f.sign = t.sign ∧ f.exponent = t.exponent ∧ f.mantissa = t.mantissa

/-- Concatenating the three fields gives the input word back, written both ways of spec/41_field_extractor.md R135. -/
def Obligations.FieldsReconstructTheWord : Prop :=
  ∀ (x : BitVec 32) (s : State), ∃ t, exec (.extract x) s = .next t ∧
    t.sign ++ t.exponent ++ t.mantissa = x ∧
    ((t.sign.setWidth 32 <<< 31) ||| (t.exponent.setWidth 32 <<< 23) ||| t.mantissa.setWidth 32) = x

/-- The three fields are independent and determine the word: every triple is the fields of exactly one word
(spec/41_field_extractor.md section 2, derived there). -/
def Obligations.EveryFieldTripleIsOfOneWord : Prop :=
  ∀ (S : BitVec 1) (E : BitVec 8) (M : BitVec 23) (s : State), ∃ x t, exec (.extract x) s = .next t ∧
    t.sign = S ∧ t.exponent = E ∧ t.mantissa = M ∧
    ∀ (x' : BitVec 32) (t' : State), exec (.extract x') s = .next t' →
      t'.sign = S → t'.exponent = E → t'.mantissa = M → x' = x

/-- `extract(x).sign = 1` if and only if bit 31 of `x` is 1, for every pattern, NaNs and both zeros among them
(spec/41_field_extractor.md R136). -/
def Obligations.SignIsBitThirtyOne : Prop :=
  ∀ (x : BitVec 32) (s : State), ∃ t, exec (.extract x) s = .next t ∧ (t.sign = 1#1 ↔ x.getLsbD 31 = true)

/-- For a non-NaN `x` the extracted sign is 1 exactly when the value of `x` is negative, -0 or -infinity (spec/41_field_extractor.md
section 2, derived there). -/
def Obligations.SignTellsNegativeValues : Prop :=
  ∀ (x : BitVec 32) (s : State), patternClass x ≠ .nan → ∃ t, exec (.extract x) s = .next t ∧
    (t.sign = 1#1 ↔ val32 x = .inf true ∨ ∃ mant exp, val32 x = .finite true mant exp)

/-! ### The Field Decoder -/

/-- `decode.sign` completes in every state: +1.0 for 0, -1.0 for 1 (spec/42_field_decoder.md R151). -/
def Obligations.DecodeSignGivesPlusOrMinusOne : Prop :=
  ∀ (sign : BitVec 1) (s : State), ∃ t, exec (.decodeSign sign) s = .next t ∧ t.sign = sign ∧
    t.signValue = if sign = 0#1 then 0x3F800000#32 else 0xBF800000#32

/-- `decode.exponent` completes in every state: `k` is the field minus 127 and `exponentValue` is `pow2_32(k)`, one formula for
all 256 field values (spec/42_field_decoder.md R152). -/
def Obligations.DecodeExponentUnbiasesAndExponentiates : Prop :=
  ∀ (exponent : BitVec 8) (s : State), ∃ t, exec (.decodeExponent exponent) s = .next t ∧ t.exponent = exponent ∧
    t.k = (exponent.toNat : Int) - 127 ∧ -127 ≤ t.k ∧ t.k ≤ 128 ∧ t.exponentValue = pow2 t.k

/-- The closed form of `decode.sign` and of `decode.exponent`, every signal of the state after each: the closed forms of the block
on the present word with that field replaced (spec/42_field_decoder.md sections 2 and 3, spec/44_pipeline.md section 1; that
the other fields stay is the model's choice, log entry 5). -/
def Obligations.DecodeSignAndExponentClosedForms : Prop :=
  (∀ (sign : BitVec 1) (s : State), exec (.decodeSign sign) s =
    .next (Sys2Proof.ClosedForm.block sign (s.x.extractLsb' 23 8) (s.x.extractLsb' 0 23))) ∧
  (∀ (exponent : BitVec 8) (s : State), exec (.decodeExponent exponent) s =
    .next (Sys2Proof.ClosedForm.block (s.x.extractLsb' 31 1) exponent (s.x.extractLsb' 0 23)))

/-- `exponentValue` carries exactly 2^(exponent-127) for every field 0 to 254, and +infinity for 255 (spec/10_state.md, DecodedFields;
the value for 255 is the spec's decision D6, log entry 9). -/
def Obligations.ExponentValueIsTheExactPowerOfTwo : Prop :=
  ∀ (exponent : BitVec 8) (s : State), ∃ t, exec (.decodeExponent exponent) s = .next t ∧
    (exponent ≠ 255#8 → (val32 t.exponentValue).toRat? = some ((2 : ℚ) ^ ((exponent.toNat : Int) - 127))) ∧
    (exponent = 255#8 → val32 t.exponentValue = .inf false)

/-- `decode.mantissa` completes in every state and is the chain of 23 stages: `acc_0` is 1.0, stage `i` adds `w(i)` if mantissa bit
`i` is set and passes otherwise, and `mantissaValue` is `acc_23` (spec/42_field_decoder.md R155). -/
def Obligations.DecodeMantissaIsTheStageChain : Prop :=
  ∀ (mantissa : BitVec 23) (s : State), ∃ t, exec (.decodeMantissa mantissa) s = .next t ∧ t.mantissa = mantissa ∧
    t.acc[0] = 0x3F800000#32 ∧ t.mantissaValue = t.acc[23] ∧
    ∀ (i : Nat) (h : i < 23),
      if mantissa.getLsbD i = true then fadd32 t.acc[i] (pow2 ((i : Int) - 23)) = some t.acc[i + 1]
      else t.acc[i + 1] = t.acc[i]

/-- The closed form of `decode.mantissa`, every signal of the state after it (spec/42_field_decoder.md section 4, derived there;
that the other fields of the word stay is the model's choice, log entry 5): wire `i` is `0x3F800000 | (mantissa mod 2^i)`, and
`mantissaValue` is `0x3F800000 | mantissa`. -/
def Obligations.DecodeMantissaClosedForm : Prop :=
  ∀ (mantissa : BitVec 23) (s : State),
    exec (.decodeMantissa mantissa) s =
      .next (Sys2Proof.ClosedForm.block (s.x.extractLsb' 31 1) (s.x.extractLsb' 23 8) mantissa) ∧
    Sys2Proof.ClosedForm.mantissaValue mantissa = 0x3F800000#32 ||| mantissa.setWidth 32

/-- The number `mantissaValue` denotes is exactly 1 + mantissa x 2^-23, in [1, 2) for every input, its pattern between `0x3F800000`
and `0x3FFFFFFF` (spec/42_field_decoder.md section 4, derived there). -/
def Obligations.MantissaValueIsTheExactSignificand : Prop :=
  ∀ (mantissa : BitVec 23) (s : State), ∃ t q, exec (.decodeMantissa mantissa) s = .next t ∧
    (val32 t.mantissaValue).toRat? = some q ∧ q = 1 + (mantissa.toNat : ℚ) / 2 ^ 23 ∧ 1 ≤ q ∧ q < 2 ∧
    0x3F800000#32 ≤ t.mantissaValue ∧ t.mantissaValue ≤ 0x3FFFFFFF#32

/-- The order of the 23 accumulations is not observable: adding the weights in any order gives the `mantissaValue` of
`decode.mantissa` (spec/42_field_decoder.md section 4, derived there). -/
def Obligations.AccumulationOrderIsNotObservable : Prop :=
  ∀ (mantissa : BitVec 23) (s : State) (order : List Nat), order.Perm (List.range 23) →
    ∃ t, exec (.decodeMantissa mantissa) s = .next t ∧
      accumulateInOrder mantissa 0x3F800000#32 order = some t.mantissaValue

/-- `decode` completes in every state and is its three parts, which may be evaluated in any order, as the units SD, ED and MA of the
block (spec/42_field_decoder.md section 1), and as operations one after the other. That the three operations lead to the state of
`decode` rests on the model's choice that each leaves the other fields of the word as they are (log entry 5). -/
def Obligations.DecodeIsItsThreePartsInAnyOrder : Prop :=
  ∀ (sign : BitVec 1) (exponent : BitVec 8) (mantissa : BitVec 23) (s : State),
    ∃ t, exec (.decode sign exponent mantissa) s = .next t ∧
      (∀ parts : List Instr, parts.Perm [.decodeSign sign, .decodeExponent exponent, .decodeMantissa mantissa] →
        execAll parts s = .next t) ∧
      (∀ units : List FunctionalUnit, units.Perm [.sd, .ed, .ma] →
        evaluateUnits ([.fx] ++ units ++ [.rm]) (s.driveInput (sign ++ exponent ++ mantissa)) = .next t)

/-- The closed form of `decode`, all signals of the state after it (derived by the spec for each of its units,
spec/44_pipeline.md section 1). -/
def Obligations.DecodeClosedForm : Prop :=
  ∀ (sign : BitVec 1) (exponent : BitVec 8) (mantissa : BitVec 23) (s : State),
    exec (.decode sign exponent mantissa) s = .next (Sys2Proof.ClosedForm.block sign exponent mantissa)

/-- `decode` is injective, and the input word can be read back from what it drives (spec/42_field_decoder.md section 5, derived
there). -/
def Obligations.DecodeDeterminesTheWord : Prop :=
  ∀ (sign : BitVec 1) (exponent : BitVec 8) (mantissa : BitVec 23) (s : State),
    ∃ t, exec (.decode sign exponent mantissa) s = .next t ∧
      t.signValue.extractLsb' 31 1 = sign ∧ t.exponentValue.extractLsb' 23 8 = exponent ∧
      t.mantissaValue.extractLsb' 0 23 = mantissa

/-! ### The Recomposer -/

/-- `recompose` completes in every state on every operand triple of its domain, with these three values on its inputs: `p` is
`signValue x exponentValue` and `recomposed` is `p x mantissaValue`, by `fmul32` (spec/43_recomposer.md R190). The association is
the spec's decision D9, which `ProductOrderIsNotObservable` says makes no difference. -/
def Obligations.RecomposeMultipliesLeftToRight : Prop :=
  ∀ (sv ev mv : F32) (s : State), inRecomposeDomain sv ev mv = true →
    ∃ t, exec (.recompose sv ev mv) s = .next t ∧
      t.signValue = sv ∧ t.exponentValue = ev ∧ t.mantissaValue = mv ∧
      fmul32 sv ev = some t.p ∧ fmul32 t.p mv = some t.recomposed

/-- An operand triple outside the domain is refused by name, which is the spec's decision D20 (log entry 6); the domain is exactly
the triples of spec/43_recomposer.md section 1, written out. -/
def Obligations.RecomposeRefusesForeignOperands : Prop :=
  (∀ (sv ev mv : F32) (s : State), inRecomposeDomain sv ev mv = false →
    exec (.recompose sv ev mv) s = .refused .recomposeOperandOutsideDomain) ∧
  (∀ sv ev mv : F32, inRecomposeDomain sv ev mv = true ↔
    (sv = 0x3F800000#32 ∨ sv = 0xBF800000#32) ∧
    (ev = 0x00400000#32 ∨ ∃ E : Nat, 1 ≤ E ∧ E ≤ 255 ∧ ev = BitVec.ofNat 32 (E <<< 23)) ∧
    (0x3F800000#32 ≤ mv ∧ mv ≤ 0x3FFFFFFF#32))

/-- The closed form of `recompose` on the values the decoder gives for `(S, E, M)`, every signal of the state after it
(spec/43_recomposer.md section 2, derived there from decisions D5 to D7; log entries 8 to 10): the one word that brings these values
to the Recomposer is the word of these fields. -/
def Obligations.RecomposeClosedForm : Prop :=
  ∀ (S : BitVec 1) (E : BitVec 8) (M : BitVec 23) (s : State),
    exec (.recompose (Sys2Proof.ClosedForm.signValue S) (Sys2Proof.ClosedForm.exponentValue E)
      (Sys2Proof.ClosedForm.mantissaValue M)) s = .next (Sys2Proof.ClosedForm.block S E M)

/-- The order and the association of the three factors are not observable on the domain: both associations of every order give the
`recomposed` of `recompose` (spec/43_recomposer.md section 1, derived there). -/
def Obligations.ProductOrderIsNotObservable : Prop :=
  ∀ (sv ev mv a b c : F32) (s : State), inRecomposeDomain sv ev mv = true → [a, b, c].Perm [sv, ev, mv] →
    ∃ t, exec (.recompose sv ev mv) s = .next t ∧
      (fmul32 a b).bind (fun q => fmul32 q c) = some t.recomposed ∧
      (fmul32 b c).bind (fun q => fmul32 a q) = some t.recomposed

/-- Whatever operation is evaluated, what it leaves on `recomposed` is never a NaN and never a zero (spec/40_numerics.md section 4
and spec/43_recomposer.md section 1, derived there). -/
def Obligations.RecomposedIsNeverNaNOrZero : Prop :=
  ∀ (i : Instr) (s t : State), exec i s = .next t → patternClass t.recomposed ≠ .nan ∧ patternClass t.recomposed ≠ .zero

/-! ### The whole pipeline -/

/-- `decompose(x)` completes in every state and is `recompose(decode(extract(x)))` with every intermediate signal delivered: the
same state as evaluating the three operations one after the other, each on what the one before drives (spec/44_pipeline.md
R210). -/
def Obligations.DecomposeIsTheThreeInSequence : Prop :=
  ∀ (x : BitVec 32) (s : State), ∃ t1 t2 t3,
    exec (.extract x) s = .next t1 ∧
    exec (.decode t1.sign t1.exponent t1.mantissa) t1 = .next t2 ∧
    exec (.recompose t2.signValue t2.exponentValue t2.mantissaValue) t2 = .next t3 ∧
    exec (.decompose x) s = .next t3 ∧ t3.x = x

/-- The closed form of `decompose` and of `extract`, every signal of the state after them (spec/44_pipeline.md section 1, derived
there; that `extract` leaves every signal so is spec/30_encoding.md section 3: every unit evaluates on every input). -/
def Obligations.DecomposeClosedForm : Prop :=
  ∀ (x : BitVec 32) (s : State),
    exec (.decompose x) s =
      .next (Sys2Proof.ClosedForm.block (x.extractLsb' 31 1) (x.extractLsb' 23 8) (x.extractLsb' 0 23)) ∧
    exec (.extract x) s = exec (.decompose x) s

/-- For every normalized input the recomposed pattern is the input, hence also equal to it under IEEE equality (spec/44_pipeline.md
section 3; the pattern form is derived there). -/
def Obligations.NormalizedInputsRoundTrip : Prop :=
  ∀ (x : BitVec 32) (s : State), x.extractLsb' 23 8 ≠ 0#8 → x.extractLsb' 23 8 ≠ 255#8 →
    ∃ t, exec (.decompose x) s = .next t ∧ t.recomposed = x ∧ eq32 t.recomposed x = true

/-- For exponent field 0 the recomposed value is not the input, neither as a pattern nor under IEEE equality; its magnitude lies in
[2^-127, 2^-126] and the sign is kept; the two zeros give `0x00400000` and `0x80400000` (spec/44_pipeline.md section 3, derived
there). -/
def Obligations.ExponentZeroInputsDeviate : Prop :=
  (∀ (x : BitVec 32) (s : State), x.extractLsb' 23 8 = 0#8 →
    ∃ t q, exec (.decompose x) s = .next t ∧ t.recomposed ≠ x ∧ eq32 t.recomposed x = false ∧
      t.recomposed.getLsbD 31 = x.getLsbD 31 ∧ (val32 t.recomposed).toRat? = some q ∧
      (2 : ℚ) ^ (-127 : Int) ≤ |q| ∧ |q| ≤ (2 : ℚ) ^ (-126 : Int)) ∧
  (∀ s : State, ∃ t, exec (.decompose 0x00000000#32) s = .next t ∧ t.recomposed = 0x00400000#32) ∧
  (∀ s : State, ∃ t, exec (.decompose 0x80000000#32) s = .next t ∧ t.recomposed = 0x80400000#32)

/-- For exponent field 255 the recomposed pattern is the infinity of the input's sign, whatever the mantissa field, so that exactly
the two infinities round-trip; the fields still decode uniformly (spec/44_pipeline.md section 3, derived there from decision D6;
log entry 9). -/
def Obligations.ExponentAllOnesGivesInfinity : Prop :=
  ∀ (x : BitVec 32) (s : State), x.extractLsb' 23 8 = 255#8 →
    ∃ t, exec (.decompose x) s = .next t ∧
      t.recomposed = x.extractLsb' 31 1 ++ 0xFF#8 ++ 0#23 ∧
      t.exponentValue = 0x7F800000#32 ∧ t.mantissaValue = 0x3F800000#32 ||| (x.extractLsb' 0 23).setWidth 32 ∧
      (x.extractLsb' 0 23 = 0#23 → t.recomposed = x) ∧
      (x.extractLsb' 0 23 ≠ 0#23 → t.recomposed ≠ x ∧ eq32 t.recomposed x = false)

/-- The recomposed pattern is the one exact real product (-1)^S x 2^(E-127) x (1 + M x 2^-23), rounded once, for every exponent field
0 to 254 (spec/43_recomposer.md sections 1 and 2, derived there). -/
def Obligations.RecomposedIsTheProductRoundedOnce : Prop :=
  ∀ (S : BitVec 1) (E : BitVec 8) (M : BitVec 23) (s : State), E ≠ 255#8 →
    ∃ t, exec (.decompose (S ++ E ++ M)) s = .next t ∧
      ∀ (mant : Nat) (exp : Int),
        magnitude mant exp = (2 : ℚ) ^ ((E.toNat : Int) - 127) * (1 + (M.toNat : ℚ) / 2 ^ 23) →
        t.recomposed = round32 (S == 1#1) mant exp

/-! ### What an operation leaves unchanged, and what it does not depend on -/

/-- The frame of the five units: a unit that evaluates changes the signals it drives and no other (spec/10_state.md section 2, the
column "driven by"), the input `x` never. -/
def Obligations.UnitsDriveOnlyTheirOwnSignals : Prop :=
  ∀ (unit : FunctionalUnit) (s t : State), s.evaluateUnit unit = some t →
    t.x = s.x ∧
    (unit ≠ .fx → t.sign = s.sign ∧ t.exponent = s.exponent ∧ t.mantissa = s.mantissa) ∧
    (unit ≠ .sd → t.signValue = s.signValue) ∧
    (unit ≠ .ed → t.k = s.k ∧ t.exponentValue = s.exponentValue) ∧
    (unit ≠ .ma → t.acc = s.acc ∧ t.mantissaValue = s.mantissaValue) ∧
    (unit ≠ .rm → t.p = s.p ∧ t.recomposed = s.recomposed)

/-- The frame of the operations: from a settled state, an operation on one field changes only the signals that this field reaches
(spec/10_state.md section 2, the column "read by"); the other fields of the word stay, which is the model's choice (log entry 5). The
operations `extract`, `decode`, `recompose` and `decompose` fix the whole word, and what they leave is in their closed forms. -/
def Obligations.OperationsChangeOnlyWhatTheirOperandReaches : Prop :=
  ∀ s t : State, Settled s →
    (∀ sign, exec (.decodeSign sign) s = .next t →
      t.exponent = s.exponent ∧ t.mantissa = s.mantissa ∧ t.k = s.k ∧ t.exponentValue = s.exponentValue ∧
      t.acc = s.acc ∧ t.mantissaValue = s.mantissaValue ∧ t.x.extractLsb' 0 31 = s.x.extractLsb' 0 31) ∧
    (∀ exponent, exec (.decodeExponent exponent) s = .next t →
      t.sign = s.sign ∧ t.mantissa = s.mantissa ∧ t.signValue = s.signValue ∧ t.acc = s.acc ∧
      t.mantissaValue = s.mantissaValue ∧ t.x.extractLsb' 31 1 = s.x.extractLsb' 31 1 ∧
      t.x.extractLsb' 0 23 = s.x.extractLsb' 0 23) ∧
    (∀ mantissa, exec (.decodeMantissa mantissa) s = .next t →
      t.sign = s.sign ∧ t.exponent = s.exponent ∧ t.signValue = s.signValue ∧ t.k = s.k ∧
      t.exponentValue = s.exponentValue ∧ t.p = s.p ∧ t.x.extractLsb' 23 9 = s.x.extractLsb' 23 9)

/-- What the host reads of an operation depends on its operands alone: from any two states it completes in both or in neither, and
the reading is the same; an operation whose operands are the whole word leaves the same state (spec/10_state.md sections 1
and 3). -/
def Obligations.OperationsReadOnlyTheirOperands : Prop :=
  ∀ (i : Instr) (s s' t : State), exec i s = .next t → ∃ t', exec i s' = .next t' ∧
    t.read i.op = t'.read i.op ∧ (i.op ∉ [Op.decodeSign, Op.decodeExponent, Op.decodeMantissa] → t = t')

/-- No value is kept from one evaluation to the next: whatever operations were evaluated before, an evaluation of the block leaves
the same state in every field (spec/10_state.md section 3, derived there; spec/70_reset_and_hazards.md section 1). -/
def Obligations.EvaluationsAreIndependent : Prop :=
  ∀ (before : List Instr) (s u : State), execAll before s = .next u →
    ∀ x : BitVec 32, ∃ t, exec (.decompose x) s = .next t ∧ exec (.decompose x) u = .next t

/-- Evaluating an operation again changes nothing (spec/20_memory.md section 3). For `decode.sign`, `decode.exponent` and
`decode.mantissa` this rests on the model's choice that the other fields of the word stay (log entry 5). -/
def Obligations.EvaluationIsIdempotent : Prop :=
  ∀ (i : Instr) (s t : State), exec i s = .next t → exec i t = .next t

/-- No operation raises an exception, on any input: every well-formed instruction completes in every state, and nothing ever
answers a fault (spec/60_exceptions.md R240). -/
def Obligations.NoOperationRaisesAnException : Prop :=
  (∀ (i : Instr) (s : State), i.wellFormed = true → ∃ t, exec i s = .next t) ∧
  (∀ (i : Instr) (s : State) (r : Fault), exec i s ≠ .fault r) ∧
  (∀ (s : State) (r : Fault), step s ≠ .fault r)

/-! ### Arithmetic -/

/-- The value of a pattern by its three fields, every row of spec/40_numerics.md R93. -/
def Obligations.PatternsHaveTheirBinary32Value : Prop :=
  ∀ (S : BitVec 1) (E : BitVec 8) (M : BitVec 23),
    (E ≠ 0#8 → E ≠ 255#8 → (val32 (S ++ E ++ M)).toRat? =
      some ((-1) ^ S.toNat * (2 : ℚ) ^ ((E.toNat : Int) - 127) * (1 + M.toNat * (2 : ℚ) ^ (-23 : Int)))) ∧
    (E = 0#8 → M = 0#23 → ∃ exp, val32 (S ++ E ++ M) = .finite (S == 1#1) 0 exp) ∧
    (E = 0#8 → M ≠ 0#23 → (val32 (S ++ E ++ M)).toRat? =
      some ((-1) ^ S.toNat * (2 : ℚ) ^ (-126 : Int) * (M.toNat * (2 : ℚ) ^ (-23 : Int)))) ∧
    (E = 255#8 → M = 0#23 → val32 (S ++ E ++ M) = .inf (S == 1#1)) ∧
    (E = 255#8 → M ≠ 0#23 → val32 (S ++ E ++ M) = .nan)

/-- `round32` follows the algorithm of spec/40_numerics.md section 2: `e` is the binade of `v`, clamped at the subnormal range; `n'`
is an integer nearest `n = v / 2^(e-23)`, the even one if `n` is halfway; the magnitude is `(e + 126) * 2^23 + n'`, an infinity
where that reaches `0x7F800000`. The direction is the spec's decision D5 (log entry 8). -/
def Obligations.RoundingIsToNearestEven : Prop :=
  ∀ (neg : Bool) (mant : Nat) (exp : Int), mant ≠ 0 → ∃ (e : Int) (n' : Nat) (n : ℚ),
    -126 ≤ e ∧ magnitude mant exp < (2 : ℚ) ^ (e + 1) ∧ (e = -126 ∨ (2 : ℚ) ^ e ≤ magnitude mant exp) ∧
    n = magnitude mant exp / (2 : ℚ) ^ (e - 23) ∧
    |(n' : ℚ) - n| ≤ 1 / 2 ∧ (|(n' : ℚ) - n| = 1 / 2 → n' % 2 = 0) ∧
    round32 neg mant exp =
      BitVec.ofBool neg ++ BitVec.ofNat 31 (min ((e + 126).toNat * 2 ^ 23 + n') 0x7F800000)

/-- Rounding depends on the value alone, not on how its magnitude is written (spec/40_numerics.md section 2; log entry 7). -/
def Obligations.RoundingDependsOnTheValueOnly : Prop :=
  ∀ (neg : Bool) (mant mant' : Nat) (exp exp' : Int), magnitude mant exp = magnitude mant' exp' →
    round32 neg mant exp = round32 neg mant' exp'

/-- A value that is exactly representable rounds to its own pattern (spec/40_numerics.md section 2). -/
def Obligations.RepresentableValuesRoundToThemselves : Prop :=
  ∀ (b : F32) (neg : Bool) (mant : Nat) (exp : Int), val32 b = .finite neg mant exp → round32 neg mant exp = b

/-- `pow2_32` on the 256 exponents the exponent decoder supplies, the table of spec/40_numerics.md section 3, and the 23 weights
(derived there from decisions D6 and D7; log entries 9 and 10). -/
def Obligations.PowersOfTwoAndWeights : Prop :=
  (∀ k : Int, -126 ≤ k → k ≤ 127 → pow2 k = BitVec.ofNat 32 ((k + 127).toNat <<< 23)) ∧
  pow2 (-127) = 0x00400000#32 ∧ pow2 128 = 0x7F800000#32 ∧
  (∀ i : Nat, i < 23 → weight i = BitVec.ofNat 32 ((104 + i) <<< 23))

/-- `fadd32` on every pair of patterns: the exact sum of two finite values, rounded; a zero sum is +0 unless both operands are -0;
no answer for an infinite or NaN operand (spec/40_numerics.md section 3). -/
def Obligations.AdditionIsTheExactSumRounded : Prop :=
  (∀ (a b : F32) (qa qb : ℚ) (mant : Nat) (exp : Int),
    (val32 a).toRat? = some qa → (val32 b).toRat? = some qb → qa + qb ≠ 0 → magnitude mant exp = |qa + qb| →
    fadd32 a b = some (round32 (decide (qa + qb < 0)) mant exp)) ∧
  (∀ (a b : F32) (qa qb : ℚ), (val32 a).toRat? = some qa → (val32 b).toRat? = some qb → qa + qb = 0 →
    fadd32 a b = some (if a = 0x80000000#32 ∧ b = 0x80000000#32 then 0x80000000#32 else 0x00000000#32)) ∧
  (∀ a b : F32, (val32 a).toRat? = none ∨ (val32 b).toRat? = none → fadd32 a b = none)

/-- `fmul32` on every pair of patterns: the exact product of two finite values with the XOR of the signs, rounded; an infinity if an
operand is one and neither is a NaN or a zero; no answer for a NaN operand or zero times infinity (spec/40_numerics.md section
3). -/
def Obligations.MultiplicationIsTheExactProductRounded : Prop :=
  (∀ (a b : F32) (qa qb : ℚ) (mant : Nat) (exp : Int),
    (val32 a).toRat? = some qa → (val32 b).toRat? = some qb → magnitude mant exp = |qa * qb| →
    fmul32 a b = some (round32 (a.getLsbD 31 ^^ b.getLsbD 31) mant exp)) ∧
  (∀ a b : F32, patternClass a = .infinity ∨ patternClass b = .infinity →
    patternClass a ≠ .nan → patternClass b ≠ .nan → patternClass a ≠ .zero → patternClass b ≠ .zero →
    fmul32 a b = some (BitVec.ofBool (a.getLsbD 31 ^^ b.getLsbD 31) ++ 0xFF#8 ++ 0#23)) ∧
  (∀ a b : F32, patternClass a = .nan ∨ patternClass b = .nan → fmul32 a b = none) ∧
  (∀ a b : F32, patternClass a = .zero → patternClass b = .infinity → fmul32 a b = none ∧ fmul32 b a = none)

/-- `eq32` is equality of values: false on a NaN, true on zeros of either sign, else equality of patterns, which is equality of the
numbers or of the infinities they denote (spec/40_numerics.md section 4). -/
def Obligations.IeeeEqualityIsEqualityOfValues : Prop :=
  (∀ a b : F32, patternClass a = .nan ∨ patternClass b = .nan → eq32 a b = false) ∧
  (∀ a b : F32, patternClass a ≠ .nan → patternClass b ≠ .nan →
    (eq32 a b = true ↔ a = b ∨ (patternClass a = .zero ∧ patternClass b = .zero))) ∧
  (∀ (a b : F32) (qa qb : ℚ), (val32 a).toRat? = some qa → (val32 b).toRat? = some qb → (eq32 a b = true ↔ qa = qb))

/-- The IEEE conditions that arise inside the block in an evaluation, recorded nowhere: overflow and inexact for exponent field 255,
underflow and inexact for exponent field 0 with an odd mantissa, invalid and division by zero never (spec/40_numerics.md section
4; log entry 13). -/
def Obligations.IeeeConditionsArise : Prop :=
  ∀ (S : BitVec 1) (E : BitVec 8) (M : BitVec 23) (s : State),
    ∃ t, exec (.decompose (S ++ E ++ M)) s = .next t ∧
      t.conditions =
        { invalid := false
          divisionByZero := false
          overflow := E == 255#8
          underflow := E == 0#8 && M.getLsbD 0
          inexact := E == 255#8 || (E == 0#8 && M.getLsbD 0) }

/-! ### Invariants -/

/-- Every signal is the function of the present `x` that its rule defines, after every step and after every operation, from every
state: evaluating the block on `x` once more changes nothing (spec/70_reset_and_hazards.md section 1, spec/10_state.md
section 1). -/
def Obligations.EveryEvaluationSettlesTheBlock : Prop :=
  (∀ s t : State, step s = .next t → Settled t ∧ t.x = s.x) ∧
  (∀ (i : Instr) (s t : State), exec i s = .next t → Settled t)

/-- A state is settled exactly when every signal has the value its rule gives for the present `x`, written out as the closed forms
(spec/44_pipeline.md section 1). -/
def Obligations.SettledSignalsFollowTheInput : Prop :=
  ∀ s : State, Settled s ↔
    s = Sys2Proof.ClosedForm.block (s.x.extractLsb' 31 1) (s.x.extractLsb' 23 8) (s.x.extractLsb' 0 23)

/-- The signals of the reset state lie in the ranges the spec gives them. -/
def Obligations.ResetSignalsAreInRange : Prop := SignalsInRange State.reset

/-- Every step and every operation, from every state, leaves the signals in the spec's ranges: the Recomposer's inputs in its operand
domain, `k` in -127..128, every accumulator wire in [1, 2), `p` a signed exponent value, `recomposed` neither NaN nor zero
(spec/43_recomposer.md section 1, spec/40_numerics.md section 4). -/
def Obligations.StepKeepsSignalsInRange : Prop :=
  (∀ s t : State, step s = .next t → SignalsInRange t) ∧
  (∀ (i : Instr) (s t : State), exec i s = .next t → SignalsInRange t)

/-- Every step completes and ends settled with its signals in range, from every state (spec/60_exceptions.md section 1). -/
def Obligations.StepCompletesInRange : Prop :=
  ∀ s : State, ∃ t, step s = .next t ∧ Settled t ∧ SignalsInRange t ∧ t.x = s.x
end

