-- ==== Sys2Proof/Laws/Operands.lean ====
section
/-!
SUPPORT. The operand forms as arithmetic on numbers: one lemma for each field, the joins, and that cutting undoes joining.
-/

namespace Sys2Proof.Machine

theorem toNat_signOf (x : BitVec 32) : (signOf x).toNat = x.toNat / 2 ^ 31 := by
  have hx := x.isLt
  simp only [signOf, Config.signShift, Config.signMask, BitVec.toNat_setWidth, BitVec.toNat_and,
    BitVec.toNat_ushiftRight, Nat.shiftRight_eq_div_pow]
  rw [show (0x1#32).toNat = 2 ^ 1 - 1 from rfl, Nat.and_two_pow_sub_one_eq_mod]
  omega

theorem toNat_exponentOf (x : BitVec 32) : (exponentOf x).toNat = x.toNat / 2 ^ 23 % 2 ^ 8 := by
  simp only [exponentOf, Config.exponentShift, Config.exponentMask, BitVec.toNat_setWidth, BitVec.toNat_and,
    BitVec.toNat_ushiftRight, Nat.shiftRight_eq_div_pow]
  rw [show (0xFF#32).toNat = 2 ^ 8 - 1 from rfl, Nat.and_two_pow_sub_one_eq_mod]
  omega

theorem toNat_mantissaOf (x : BitVec 32) : (mantissaOf x).toNat = x.toNat % 2 ^ 23 := by
  simp only [mantissaOf, Config.mantissaShift, Config.mantissaMask, BitVec.toNat_setWidth, BitVec.toNat_and,
    BitVec.toNat_ushiftRight, Nat.shiftRight_eq_div_pow]
  rw [show (0x7FFFFF#32).toNat = 2 ^ 23 - 1 from rfl, Nat.and_two_pow_sub_one_eq_mod]
  omega

theorem toNat_append_eq {n m : Nat} (a : BitVec n) (b : BitVec m) :
    (a ++ b).toNat = a.toNat * 2 ^ m + b.toNat := by
  rw [BitVec.toNat_append, Nat.shiftLeft_eq, ← Nat.shiftLeft_eq, Nat.shiftLeft_add_eq_or_of_lt b.isLt]

theorem toNat_joinFields (s : BitVec 1) (e : BitVec 8) (m : BitVec 23) :
    (joinFields s e m).toNat = s.toNat * 2 ^ 31 + e.toNat * 2 ^ 23 + m.toNat := by
  simp only [joinFields, toNat_append_eq]
  omega

theorem toNat_joinDecoded (a b c : F32) :
    (joinDecoded a b c).toNat = a.toNat * 2 ^ 64 + b.toNat * 2 ^ 32 + c.toNat := by
  simp only [joinDecoded, toNat_append_eq]
  omega

@[simp] theorem signOf_joinFields (s : BitVec 1) (e : BitVec 8) (m : BitVec 23) : signOf (joinFields s e m) = s := by
  apply BitVec.eq_of_toNat_eq
  rw [toNat_signOf, toNat_joinFields]
  omega

@[simp] theorem exponentOf_joinFields (s : BitVec 1) (e : BitVec 8) (m : BitVec 23) :
    exponentOf (joinFields s e m) = e := by
  apply BitVec.eq_of_toNat_eq
  rw [toNat_exponentOf, toNat_joinFields]
  omega

@[simp] theorem mantissaOf_joinFields (s : BitVec 1) (e : BitVec 8) (m : BitVec 23) :
    mantissaOf (joinFields s e m) = m := by
  apply BitVec.eq_of_toNat_eq
  rw [toNat_mantissaOf, toNat_joinFields]
  omega

@[simp] theorem joinFields_fieldsOf (x : BitVec 32) : joinFields (signOf x) (exponentOf x) (mantissaOf x) = x := by
  apply BitVec.eq_of_toNat_eq
  rw [toNat_joinFields, toNat_signOf, toNat_exponentOf, toNat_mantissaOf]
  omega

/-- Every pattern is the join of three fields: the way to split a claim about `x` by its fields. -/
theorem exists_joinFields (x : BitVec 32) : ∃ s e m, x = joinFields s e m :=
  ⟨signOf x, exponentOf x, mantissaOf x, (joinFields_fieldsOf x).symm⟩

theorem joinFields_inj {s s' : BitVec 1} {e e' : BitVec 8} {m m' : BitVec 23} :
    joinFields s e m = joinFields s' e' m' ↔ s = s' ∧ e = e' ∧ m = m' := by
  constructor
  · intro h
    exact ⟨by simpa using congrArg signOf h, by simpa using congrArg exponentOf h,
      by simpa using congrArg mantissaOf h⟩
  · rintro ⟨rfl, rfl, rfl⟩
    rfl

theorem bit_eq_zero_or_one (s : BitVec 1) : s = 0#1 ∨ s = 1#1 := by
  revert s
  decide

/-- The domain of `exponentValue` by fields (spec/43_recomposer.md R191). -/
theorem inExponentValueDomain_joinFields (s : BitVec 1) (e : BitVec 8) (m : BitVec 23) :
    inExponentValueDomain (joinFields s e m) = true ↔
      s = 0#1 ∧ ((e = 0#8 ∧ m = 0x400000#23) ∨ (e ≠ 0#8 ∧ m = 0#23)) := by
  rw [inExponentValueDomain, show 0x00400000#32 = joinFields 0#1 0#8 0x400000#23 from by decide]
  simp [joinFields_inj]
  tauto

/-- The domain of `mantissaValue` by fields (spec/43_recomposer.md R191). -/
theorem inMantissaValueDomain_joinFields (s : BitVec 1) (e : BitVec 8) (m : BitVec 23) :
    inMantissaValueDomain (joinFields s e m) = true ↔ s = 0#1 ∧ e = 127#8 := by
  have hs := s.isLt
  have he := e.isLt
  have hm := m.isLt
  simp only [inMantissaValueDomain, Bool.and_eq_true, decide_eq_true_eq, BitVec.le_def, toNat_joinFields,
    ← BitVec.toNat_inj, BitVec.toNat_ofNat]
  omega

/-- The domain of `signValue` by fields (spec/43_recomposer.md R191). -/
theorem inSignValueDomain_joinFields (s : BitVec 1) (e : BitVec 8) (m : BitVec 23) :
    inSignValueDomain (joinFields s e m) = true ↔ e = 127#8 ∧ m = 0#23 := by
  rw [inSignValueDomain, show Config.plusOne = joinFields 0#1 127#8 0#23 from by decide,
    show Config.minusOne = joinFields 1#1 127#8 0#23 from by decide]
  rcases bit_eq_zero_or_one s with rfl | rfl <;> simp [joinFields_inj]

end Sys2Proof.Machine
end

