-- ==== Sys2Proof/Laws/Numerics.lean ====
section
/-!
SUPPORT. What the arithmetic of spec/40_numerics.md can do, said once: the value of a pattern by its fields, the nearest-even
integer, rounding as a function of the value alone, rounding of a 24-bit significand, and the three primitives on the operands
that the block has.
-/

namespace Sys2Proof.Machine

/-! ### The value of a pattern -/

/-- `val32` by fields (spec/40_numerics.md R93). -/
theorem val32_joinFields (s : BitVec 1) (e : BitVec 8) (m : BitVec 23) :
    val32 (joinFields s e m) =
      if e = 255#8 then if m = 0#23 then .inf (s == 1#1) else .nan
      else if e = 0#8 then .finite (s == 1#1) m.toNat (-149)
      else .finite (s == 1#1) (2 ^ 23 + m.toNat) ((e.toNat : Int) - 150) := by
  simp [val32]

/-- `pack` by fields: an exponent field and a mantissa field side by side in the 31-bit magnitude. -/
theorem pack_fields (neg : Bool) (e : BitVec 8) (m : BitVec 23) :
    pack neg (e.toNat * 2 ^ 23 + m.toNat) = joinFields (BitVec.ofBool neg) e m := by
  have he := e.isLt
  have hm := m.isLt
  apply BitVec.eq_of_toNat_eq
  rw [toNat_joinFields, pack, toNat_append_eq, BitVec.toNat_ofNat]
  omega

/-! ### The nearest integer, ties to even -/

theorem halfEven_zero_shift (m : Nat) : halfEven m 0 = m := by
  simp [halfEven, Nat.mod_one]

theorem halfEven_mul_pow (m a t : Nat) : halfEven (m * 2 ^ t) (a + t) = halfEven m a := by
  have ht : 0 < 2 ^ t := Nat.two_pow_pos t
  have hdiv : m * 2 ^ t / 2 ^ (a + t) = m / 2 ^ a := by rw [pow_add, Nat.mul_div_mul_right _ _ ht]
  have hmod : m * 2 ^ t % 2 ^ (a + t) = m % 2 ^ a * 2 ^ t := by rw [pow_add, Nat.mul_mod_mul_right]
  have hlt : 2 * (m % 2 ^ a * 2 ^ t) < 2 ^ (a + t) ↔ 2 * (m % 2 ^ a) < 2 ^ a := by
    rw [pow_add, ← mul_assoc, Nat.mul_lt_mul_right ht]
  have hgt : 2 ^ (a + t) < 2 * (m % 2 ^ a * 2 ^ t) ↔ 2 ^ a < 2 * (m % 2 ^ a) := by
    rw [pow_add, ← mul_assoc, Nat.mul_lt_mul_right ht]
  simp only [halfEven, hdiv, hmod, hlt, hgt]

theorem halfEven_exact (m t sh : Nat) (h : sh ≤ t) : halfEven (m * 2 ^ t) sh = m * 2 ^ (t - sh) := by
  obtain ⟨d, rfl⟩ := Nat.exists_eq_add_of_le h
  have := halfEven_mul_pow (m * 2 ^ d) 0 sh
  rw [halfEven_zero_shift, zero_add, mul_assoc, ← pow_add] at this
  rw [add_comm sh d, this, Nat.add_sub_cancel]

/-- Everything `halfEven` can do (spec/40_numerics.md R94): its answer lies within half a unit of `m / 2^sh`, and where it is
exactly half a unit away it is even. -/
theorem halfEven_spec (m sh : Nat) :
    2 * m ≤ (2 * halfEven m sh + 1) * 2 ^ sh ∧ 2 * halfEven m sh * 2 ^ sh ≤ 2 * m + 2 ^ sh ∧
      (2 * m = (2 * halfEven m sh + 1) * 2 ^ sh ∨ 2 * halfEven m sh * 2 ^ sh = 2 * m + 2 ^ sh →
        halfEven m sh % 2 = 0) := by
  have hp : 0 < 2 ^ sh := Nat.two_pow_pos sh
  have hm : 2 ^ sh * (m / 2 ^ sh) + m % 2 ^ sh = m := Nat.div_add_mod m (2 ^ sh)
  have hr : m % 2 ^ sh < 2 ^ sh := Nat.mod_lt m hp
  simp only [halfEven]
  generalize 2 ^ sh = b at *
  generalize m / b = q at *
  generalize m % b = r at *
  have e1 : (2 * q + 1) * b = 2 * (b * q) + b := by ring
  have e2 : 2 * q * b = 2 * (b * q) := by ring
  have e3 : (2 * (q + 1) + 1) * b = 2 * (b * q) + 3 * b := by ring
  have e4 : 2 * (q + 1) * b = 2 * (b * q) + 2 * b := by ring
  split
  · rw [e1, e2]
    omega
  · split
    · rw [e3, e4]
      omega
    · rcases Nat.mod_two_eq_zero_or_one q with h | h
      · rw [h, add_zero, e1, e2]
        omega
      · rw [h, e3, e4]
        omega

/-! ### Rounding is a function of the value -/

theorem log2_mul_pow (m t : Nat) (hm : m ≠ 0) : Nat.log2 (m * 2 ^ t) = Nat.log2 m + t := by
  have hpos : m * 2 ^ t ≠ 0 := Nat.mul_ne_zero hm (Nat.two_pow_pos t).ne'
  rw [Nat.log2_eq_iff hpos]
  have h1 := Nat.log2_self_le hm
  have h2 := Nat.lt_log2_self (n := m)
  constructor
  · rw [pow_add]
    exact Nat.mul_le_mul_right _ h1
  · rw [show Nat.log2 m + t + 1 = (Nat.log2 m + 1) + t by omega, pow_add]
    exact (Nat.mul_lt_mul_right (Nat.two_pow_pos t)).mpr h2

theorem binade_mul_pow (m t : Nat) (e : Int) (hm : m ≠ 0) : binade (m * 2 ^ t) e = binade m (e + t) := by
  rw [binade, binade, log2_mul_pow m t hm]
  push_cast
  congr 1
  ring

theorem roundedUnits_mul_pow (m t : Nat) (e : Int) (hm : m ≠ 0) :
    roundedUnits (m * 2 ^ t) e = roundedUnits m (e + t) := by
  simp only [roundedUnits, binade_mul_pow m t e hm]
  generalize binade m (e + t) - 23 = b
  by_cases h1 : 0 ≤ e - b
  · rw [if_pos h1, if_pos (by omega), show (e + t - b).toNat = t + (e - b).toNat by omega, pow_add, mul_assoc]
  · rw [if_neg h1]
    by_cases h2 : 0 ≤ e + t - b
    · rw [if_pos h2, halfEven_exact _ _ _ (by omega), show t - (-(e - b)).toNat = (e + t - b).toNat by omega]
    · rw [if_neg h2, show (-(e - b)).toNat = (-(e + t - b)).toNat + t by omega, halfEven_mul_pow]

/-- Moving a power of two between the two parts of a magnitude does not change what it rounds to. -/
theorem round32_mul_pow (neg : Bool) (m t : Nat) (e : Int) : round32 neg (m * 2 ^ t) e = round32 neg m (e + t) := by
  by_cases hm : m = 0
  · simp [round32, hm]
  · have hpos : m * 2 ^ t ≠ 0 := Nat.mul_ne_zero hm (Nat.two_pow_pos t).ne'
    simp only [round32, if_neg hm, if_neg hpos, roundedMagnitude, binade_mul_pow m t e hm,
      roundedUnits_mul_pow m t e hm]

/-! ### Rounding a 24-bit significand -/

theorem log2_significand (m : BitVec 23) : Nat.log2 (2 ^ 23 + m.toNat) = 23 := by
  have hm := m.isLt
  rw [Nat.log2_eq_iff (by omega)]
  omega

/-- A normalized value rounds to its own pattern. -/
theorem round32_normalized (neg : Bool) (e : BitVec 8) (m : BitVec 23) (h0 : e ≠ 0#8) (h255 : e ≠ 255#8) :
    round32 neg (2 ^ 23 + m.toNat) ((e.toNat : Int) - 150) = joinFields (BitVec.ofBool neg) e m := by
  have hm := m.isLt
  have he := e.isLt
  have h0' : e.toNat ≠ 0 := fun h => h0 (BitVec.eq_of_toNat_eq (by simpa using h))
  have h255' : e.toNat ≠ 255 := fun h => h255 (BitVec.eq_of_toNat_eq (by simpa using h))
  have hb : binade (2 ^ 23 + m.toNat) ((e.toNat : Int) - 150) = (e.toNat : Int) - 127 := by
    rw [binade, log2_significand]
    omega
  have hu : roundedUnits (2 ^ 23 + m.toNat) ((e.toNat : Int) - 150) = 2 ^ 23 + m.toNat := by
    simp only [roundedUnits, hb]
    rw [show (e.toNat : Int) - 150 - ((e.toNat : Int) - 127 - 23) = 0 by ring]
    simp
  have hmag : roundedMagnitude (2 ^ 23 + m.toNat) ((e.toNat : Int) - 150) = e.toNat * 2 ^ 23 + m.toNat := by
    rw [roundedMagnitude, hb, hu]
    omega
  rw [round32, if_neg (by omega), hmag, min_eq_left (by rw [infinityMagnitude]; omega), pack_fields]

/-- A subnormal value, or a zero, rounds to its own pattern. -/
theorem round32_subnormal (neg : Bool) (m : BitVec 23) :
    round32 neg m.toNat (-149) = joinFields (BitVec.ofBool neg) 0#8 m := by
  have hm := m.isLt
  have hp := pack_fields neg 0#8 m
  rw [show (0#8).toNat * 2 ^ 23 + m.toNat = m.toNat by simp] at hp
  by_cases h0 : m.toNat = 0
  · rw [round32, if_pos h0, ← hp, h0]
  · have hlog : Nat.log2 m.toNat < 23 := (Nat.log2_lt h0).mpr hm
    have hb : binade m.toNat (-149) = -126 := by
      rw [binade]
      omega
    have hu : roundedMagnitude m.toNat (-149) = m.toNat := by
      simp [roundedMagnitude, roundedUnits, hb]
    rw [round32, if_neg h0, hu, min_eq_left (by rw [infinityMagnitude]; omega), hp]

/-- A value of half a subnormal unit times a 24-bit integer, the one magnitude the block rounds inexactly
(spec/40_numerics.md R98 E6): `n` is `N`, and the result is the nearest-even half of it. -/
theorem round32_half (neg : Bool) (m : BitVec 23) :
    round32 neg (2 ^ 23 + m.toNat) (-150) = pack neg (halfEven (2 ^ 23 + m.toNat) 1) := by
  have hm := m.isLt
  have hb : binade (2 ^ 23 + m.toNat) (-150) = -126 := by
    rw [binade, log2_significand]
    omega
  have hle := (halfEven_spec (2 ^ 23 + m.toNat) 1).2.1
  have hu : roundedMagnitude (2 ^ 23 + m.toNat) (-150) = halfEven (2 ^ 23 + m.toNat) 1 := by
    simp only [roundedMagnitude, roundedUnits, hb]
    norm_num
  rw [round32, if_neg (by omega), hu, min_eq_left (by rw [infinityMagnitude]; omega)]

/-- The nearest-even half of an integer, by its last two bits (spec/43_recomposer.md R193). -/
theorem halfEven_one (n : Nat) : halfEven n 1 = n / 2 + n % 2 * (n / 2 % 2) := by
  simp only [halfEven, pow_one]
  rcases Nat.mod_two_eq_zero_or_one n with h | h <;> simp [h]

/-! ### The primitives on the block's operands -/

/-- `pow2` for the exponents the exponent decoder supplies (spec/40_numerics.md R95). -/
theorem pow2_signedExponent (e : BitVec 8) :
    pow2 (signedExponent e) = if e = 0#8 then joinFields 0#1 0#8 0x400000#23 else joinFields 0#1 e 0#23 := by
  by_cases h0 : e = 0#8
  · subst h0
    decide
  · rw [if_neg h0]
    by_cases h255 : e = 255#8
    · subst h255
      decide
    · have h := round32_normalized false e 0#23 h0 h255
      have hs := round32_mul_pow false 1 23 ((e.toNat : Int) - 150)
      simp only [BitVec.toNat_zero, add_zero, one_mul] at h hs
      rw [pow2, signedExponent, ← show (e.toNat : Int) - 150 + (23 : Nat) = e.toNat - Config.bias by
        simp only [Config.bias]; omega, ← hs, h]
      rfl

/-- The 23 weights (spec/40_numerics.md R102). -/
theorem weight_eq (i : Nat) (h : i < 23) : weight i = joinFields 0#1 (BitVec.ofNat 8 (104 + i)) 0#23 := by
  have hk : weightExponent i = signedExponent (BitVec.ofNat 8 (104 + i)) := by
    simp only [weightExponent, signedExponent, Config.mantissaWidth, Config.bias, BitVec.toNat_ofNat]
    omega
  have hne : BitVec.ofNat 8 (104 + i) ≠ 0#8 := by
    intro hz
    have := congrArg BitVec.toNat hz
    simp only [BitVec.toNat_ofNat] at this
    omega
  rw [weight, hk, pow2_signedExponent, if_neg hne]

/-- The accumulator value `1 + j * 2^-23`. -/
theorem val32_accumulator (j : BitVec 23) : val32 (joinFields 0#1 127#8 j) = .finite false (2 ^ 23 + j.toNat) (-23) := by
  rw [val32_joinFields, if_neg (by decide), if_neg (by decide)]
  rfl

/-- The weight `2^(i-23)`. -/
theorem val32_weight (i : Nat) (h : i < 23) : val32 (weight i) = .finite false (2 ^ 23) ((i : Int) - 46) := by
  have hw : (BitVec.ofNat 8 (104 + i)).toNat = 104 + i := by
    simp only [BitVec.toNat_ofNat]
    omega
  have hne (n : Nat) (hn : n = 0 ∨ n = 255) : BitVec.ofNat 8 (104 + i) ≠ BitVec.ofNat 8 n := fun hz => by
    have := congrArg BitVec.toNat hz
    rw [hw, BitVec.toNat_ofNat] at this
    omega
  rw [weight_eq i h, val32_joinFields, if_neg (hne 255 (.inr rfl)), if_neg (hne 0 (.inl rfl)), hw]
  simp only [BitVec.toNat_zero, add_zero, Val32.finite.injEq]
  exact ⟨rfl, trivial, by omega⟩

/-- The exact sum of an accumulator value and a weight, in units of the weight's spacing. -/
theorem signedUnits_accumulator (j : BitVec 23) (i : Nat) (h : i < 23) :
    signedUnits false (2 ^ 23 + j.toNat) (-23) ((i : Int) - 46) +
        signedUnits false (2 ^ 23) ((i : Int) - 46) ((i : Int) - 46) =
      (((2 ^ 23 + (j.toNat + 2 ^ i)) * 2 ^ (23 - i) : Nat) : Int) := by
  have hp : 2 ^ i * 2 ^ (23 - i) = 2 ^ 23 := by rw [← pow_add, Nat.add_sub_cancel' h.le]
  rw [show 2 ^ 23 + (j.toNat + 2 ^ i) = (2 ^ 23 + j.toNat) + 2 ^ i by ring,
    Nat.add_mul (2 ^ 23 + j.toNat) (2 ^ i), hp, signedUnits, signedUnits, sub_self,
    show (-23 - ((i : Int) - 46)).toNat = 23 - i by omega]
  simp

/-- One addition of the mantissa accumulator: exact, and again in [1, 2) (spec/40_numerics.md R96). -/
theorem fadd32_weight (j : BitVec 23) (i : Nat) (hi : i < 23) (h : j.toNat + 2 ^ i < 2 ^ 23) :
    fadd32 (joinFields 0#1 127#8 j) (weight i) =
      some (joinFields 0#1 127#8 (BitVec.ofNat 23 (j.toNat + 2 ^ i))) := by
  have hj : (BitVec.ofNat 23 (j.toNat + 2 ^ i)).toNat = j.toNat + 2 ^ i := by
    rw [BitVec.toNat_ofNat, Nat.mod_eq_of_lt h]
  have hr := round32_normalized false 127#8 (BitVec.ofNat 23 (j.toNat + 2 ^ i)) (by decide) (by decide)
  have hs := round32_mul_pow false (2 ^ 23 + (j.toNat + 2 ^ i)) (23 - i) ((i : Int) - 46)
  rw [hj] at hr
  rw [show (i : Int) - 46 + ((23 - i : Nat) : Int) = ((127#8).toNat : Int) - 150 by simp; omega, hr] at hs
  have hpos : 0 < (2 ^ 23 + (j.toNat + 2 ^ i)) * 2 ^ (23 - i) := by positivity
  rw [fadd32, val32_accumulator, val32_weight i hi]
  simp only [min_eq_right (show (i : Int) - 46 ≤ -23 by omega), signedUnits_accumulator j i hi]
  rw [if_neg (by omega), Int.natAbs_natCast, decide_eq_false (by omega), hs]
  rfl

/-- Multiplying by a significand in [1, 2): `±2^k * (1 + M * 2^-23)` for a normalized `±2^k` (spec/40_numerics.md R97 (a), (b)). -/
theorem fmul32_normalized (s t : BitVec 1) (e : BitVec 8) (m : BitVec 23) (h0 : e ≠ 0#8) (h255 : e ≠ 255#8) :
    fmul32 (joinFields s e 0#23) (joinFields t 127#8 m) = some (joinFields (s ^^^ t) e m) := by
  have hs := round32_mul_pow ((s == 1#1) ^^ (t == 1#1)) (2 ^ 23 + m.toNat) 23 ((e.toNat : Int) - 173)
  rw [show (e.toNat : Int) - 173 + ((23 : Nat) : Int) = (e.toNat : Int) - 150 by push_cast; ring,
    round32_normalized _ e m h0 h255, Nat.mul_comm] at hs
  rw [fmul32, val32_joinFields, val32_joinFields, if_neg h255, if_neg h0, if_neg (by decide), if_neg (by decide)]
  simp only [BitVec.toNat_zero, add_zero]
  rw [show ((e.toNat : Int) - 150 + (((127#8).toNat : Int) - 150)) = (e.toNat : Int) - 173 by simp; ring, hs]
  rcases bit_eq_zero_or_one s with rfl | rfl <;> rcases bit_eq_zero_or_one t with rfl | rfl <;> rfl

/-- Multiplication by `±1.0` is exact on every operand that is not a NaN: it XORs the sign in (spec/40_numerics.md R98 E4). -/
theorem fmul32_sign (s t : BitVec 1) (e : BitVec 8) (m : BitVec 23) (h : e ≠ 255#8 ∨ m = 0#23) :
    fmul32 (joinFields s 127#8 0#23) (joinFields t e m) = some (joinFields (s ^^^ t) e m) := by
  have hsign : BitVec.ofBool ((s == 1#1) ^^ (t == 1#1)) = s ^^^ t := by
    revert s t
    decide
  have hround (mant : Nat) (exp : Int) :
      round32 ((s == 1#1) ^^ (t == 1#1)) (2 ^ 23 * mant) (-23 + exp) = round32 ((s == 1#1) ^^ (t == 1#1)) mant exp := by
    rw [Nat.mul_comm, round32_mul_pow]
    congr 1
    push_cast
    ring
  rw [fmul32, val32_joinFields, val32_joinFields, if_neg (by decide), if_neg (by decide)]
  by_cases h255 : e = 255#8
  · obtain rfl : m = 0#23 := h.resolve_left (absurd h255)
    subst h255
    have hp := pack_fields ((s == 1#1) ^^ (t == 1#1)) 255#8 0#23
    rw [hsign] at hp
    rw [if_pos rfl, if_pos rfl, ← hp]
    rfl
  · rw [if_neg h255]
    by_cases h0 : e = 0#8
    · rw [if_pos h0, h0, ← hsign, ← round32_subnormal, ← hround]
      rfl
    · rw [if_neg h0, ← hsign, ← round32_normalized _ e m h0 h255, ← hround]
      rfl

/-- Multiplication is commutative on all operands. -/
theorem fmul32_comm (a b : F32) : fmul32 a b = fmul32 b a := by
  rw [fmul32, fmul32]
  rcases val32 a with _ | na | ⟨na, ma, ea⟩ <;> rcases val32 b with _ | nb | ⟨nb, mb, eb⟩ <;>
    simp [Bool.xor_comm, Nat.mul_comm, Int.add_comm]

/-- Multiplying `±2^-127` by a sign keeps it (spec/40_numerics.md R97 (a)). -/
theorem fmul32_sign_least (s t : BitVec 1) :
    fmul32 (joinFields s 127#8 0#23) (joinFields t 0#8 0x400000#23) = some (joinFields (s ^^^ t) 0#8 0x400000#23) := by
  revert s t
  decide

/-- Multiplying `±2^-127` by a significand in [1, 2): the one product that can round (spec/40_numerics.md R97 (c)). -/
theorem fmul32_least (s t : BitVec 1) (m : BitVec 23) :
    fmul32 (joinFields s 0#8 0x400000#23) (joinFields t 127#8 m) =
      some (pack ((s ^^^ t) == 1#1) (halfEven (2 ^ 23 + m.toNat) 1)) := by
  have hs := round32_mul_pow ((s == 1#1) ^^ (t == 1#1)) (2 ^ 23 + m.toNat) 22 (-172)
  rw [show (-172 : Int) + ((22 : Nat) : Int) = -150 by norm_num, round32_half, Nat.mul_comm] at hs
  rw [fmul32, val32_joinFields, val32_joinFields, if_neg (by decide), if_pos rfl, if_neg (by decide), if_neg (by decide)]
  simp only [show (0x400000#23).toNat = 2 ^ 22 from rfl]
  rw [show ((-149 : Int) + (((127#8).toNat : Int) - 150)) = -172 by simp, hs]
  rcases bit_eq_zero_or_one s with rfl | rfl <;> rcases bit_eq_zero_or_one t with rfl | rfl <;> rfl

/-- Multiplying an infinity by a normalized value (spec/40_numerics.md R97 (d)). -/
theorem fmul32_infinity (s t : BitVec 1) (m : BitVec 23) :
    fmul32 (joinFields s 255#8 0#23) (joinFields t 127#8 m) = some (joinFields (s ^^^ t) 255#8 0#23) := by
  rw [fmul32, val32_joinFields, val32_joinFields, if_pos rfl, if_pos rfl, if_neg (by decide), if_neg (by decide)]
  simp only [show ¬ (2 ^ 23 + m.toNat = 0) by omega, if_false]
  rcases bit_eq_zero_or_one s with rfl | rfl <;> rcases bit_eq_zero_or_one t with rfl | rfl <;> decide

end Sys2Proof.Machine
end

