-- ==== Sys2Proof/Laws/State.lean ====
section
/-!
SUPPORT. One lemma per field per update of the state: what the host and each unit drive and what they leave as it was.
-/

namespace Sys2Proof.Machine

@[simp] theorem State.driveInput_x (s : State) (x : BitVec 32) : (s.driveInput x).x = x := rfl
@[simp] theorem State.driveInput_sign (s : State) (x : BitVec 32) : (s.driveInput x).sign = s.sign := rfl
@[simp] theorem State.driveInput_exponent (s : State) (x : BitVec 32) : (s.driveInput x).exponent = s.exponent := rfl
@[simp] theorem State.driveInput_mantissa (s : State) (x : BitVec 32) : (s.driveInput x).mantissa = s.mantissa := rfl
@[simp] theorem State.driveInput_k (s : State) (x : BitVec 32) : (s.driveInput x).k = s.k := rfl
@[simp] theorem State.driveInput_acc (s : State) (x : BitVec 32) : (s.driveInput x).acc = s.acc := rfl
@[simp] theorem State.driveInput_signValue (s : State) (x : BitVec 32) : (s.driveInput x).signValue = s.signValue := rfl
@[simp] theorem State.driveInput_exponentValue (s : State) (x : BitVec 32) : (s.driveInput x).exponentValue = s.exponentValue := rfl
@[simp] theorem State.driveInput_mantissaValue (s : State) (x : BitVec 32) : (s.driveInput x).mantissaValue = s.mantissaValue := rfl
@[simp] theorem State.driveInput_p (s : State) (x : BitVec 32) : (s.driveInput x).p = s.p := rfl
@[simp] theorem State.driveInput_recomposed (s : State) (x : BitVec 32) : (s.driveInput x).recomposed = s.recomposed := rfl

@[simp] theorem State.driveRaw_x (s : State) (r : RawFields) : (s.driveRaw r).x = s.x := rfl
@[simp] theorem State.driveRaw_sign (s : State) (r : RawFields) : (s.driveRaw r).sign = r.sign := rfl
@[simp] theorem State.driveRaw_exponent (s : State) (r : RawFields) : (s.driveRaw r).exponent = r.exponent := rfl
@[simp] theorem State.driveRaw_mantissa (s : State) (r : RawFields) : (s.driveRaw r).mantissa = r.mantissa := rfl
@[simp] theorem State.driveRaw_k (s : State) (r : RawFields) : (s.driveRaw r).k = s.k := rfl
@[simp] theorem State.driveRaw_acc (s : State) (r : RawFields) : (s.driveRaw r).acc = s.acc := rfl
@[simp] theorem State.driveRaw_signValue (s : State) (r : RawFields) : (s.driveRaw r).signValue = s.signValue := rfl
@[simp] theorem State.driveRaw_exponentValue (s : State) (r : RawFields) : (s.driveRaw r).exponentValue = s.exponentValue := rfl
@[simp] theorem State.driveRaw_mantissaValue (s : State) (r : RawFields) : (s.driveRaw r).mantissaValue = s.mantissaValue := rfl
@[simp] theorem State.driveRaw_p (s : State) (r : RawFields) : (s.driveRaw r).p = s.p := rfl
@[simp] theorem State.driveRaw_recomposed (s : State) (r : RawFields) : (s.driveRaw r).recomposed = s.recomposed := rfl

@[simp] theorem State.driveSignValue_x (s : State) (v : F32) : (s.driveSignValue v).x = s.x := rfl
@[simp] theorem State.driveSignValue_sign (s : State) (v : F32) : (s.driveSignValue v).sign = s.sign := rfl
@[simp] theorem State.driveSignValue_exponent (s : State) (v : F32) : (s.driveSignValue v).exponent = s.exponent := rfl
@[simp] theorem State.driveSignValue_mantissa (s : State) (v : F32) : (s.driveSignValue v).mantissa = s.mantissa := rfl
@[simp] theorem State.driveSignValue_k (s : State) (v : F32) : (s.driveSignValue v).k = s.k := rfl
@[simp] theorem State.driveSignValue_acc (s : State) (v : F32) : (s.driveSignValue v).acc = s.acc := rfl
@[simp] theorem State.driveSignValue_signValue (s : State) (v : F32) : (s.driveSignValue v).signValue = v := rfl
@[simp] theorem State.driveSignValue_exponentValue (s : State) (v : F32) : (s.driveSignValue v).exponentValue = s.exponentValue := rfl
@[simp] theorem State.driveSignValue_mantissaValue (s : State) (v : F32) : (s.driveSignValue v).mantissaValue = s.mantissaValue := rfl
@[simp] theorem State.driveSignValue_p (s : State) (v : F32) : (s.driveSignValue v).p = s.p := rfl
@[simp] theorem State.driveSignValue_recomposed (s : State) (v : F32) : (s.driveSignValue v).recomposed = s.recomposed := rfl

@[simp] theorem State.driveExponentValue_x (s : State) (k : Int) (v : F32) : (s.driveExponentValue k v).x = s.x := rfl
@[simp] theorem State.driveExponentValue_sign (s : State) (k : Int) (v : F32) : (s.driveExponentValue k v).sign = s.sign := rfl
@[simp] theorem State.driveExponentValue_exponent (s : State) (k : Int) (v : F32) : (s.driveExponentValue k v).exponent = s.exponent := rfl
@[simp] theorem State.driveExponentValue_mantissa (s : State) (k : Int) (v : F32) : (s.driveExponentValue k v).mantissa = s.mantissa := rfl
@[simp] theorem State.driveExponentValue_k (s : State) (k : Int) (v : F32) : (s.driveExponentValue k v).k = k := rfl
@[simp] theorem State.driveExponentValue_acc (s : State) (k : Int) (v : F32) : (s.driveExponentValue k v).acc = s.acc := rfl
@[simp] theorem State.driveExponentValue_signValue (s : State) (k : Int) (v : F32) : (s.driveExponentValue k v).signValue = s.signValue := rfl
@[simp] theorem State.driveExponentValue_exponentValue (s : State) (k : Int) (v : F32) : (s.driveExponentValue k v).exponentValue = v := rfl
@[simp] theorem State.driveExponentValue_mantissaValue (s : State) (k : Int) (v : F32) : (s.driveExponentValue k v).mantissaValue = s.mantissaValue := rfl
@[simp] theorem State.driveExponentValue_p (s : State) (k : Int) (v : F32) : (s.driveExponentValue k v).p = s.p := rfl
@[simp] theorem State.driveExponentValue_recomposed (s : State) (k : Int) (v : F32) : (s.driveExponentValue k v).recomposed = s.recomposed := rfl

@[simp] theorem State.driveAccumulator_x (s : State) (wires : Vector F32 24) : (s.driveAccumulator wires).x = s.x := rfl
@[simp] theorem State.driveAccumulator_sign (s : State) (wires : Vector F32 24) : (s.driveAccumulator wires).sign = s.sign := rfl
@[simp] theorem State.driveAccumulator_exponent (s : State) (wires : Vector F32 24) : (s.driveAccumulator wires).exponent = s.exponent := rfl
@[simp] theorem State.driveAccumulator_mantissa (s : State) (wires : Vector F32 24) : (s.driveAccumulator wires).mantissa = s.mantissa := rfl
@[simp] theorem State.driveAccumulator_k (s : State) (wires : Vector F32 24) : (s.driveAccumulator wires).k = s.k := rfl
@[simp] theorem State.driveAccumulator_acc (s : State) (wires : Vector F32 24) : (s.driveAccumulator wires).acc = wires := rfl
@[simp] theorem State.driveAccumulator_signValue (s : State) (wires : Vector F32 24) : (s.driveAccumulator wires).signValue = s.signValue := rfl
@[simp] theorem State.driveAccumulator_exponentValue (s : State) (wires : Vector F32 24) : (s.driveAccumulator wires).exponentValue = s.exponentValue := rfl
@[simp] theorem State.driveAccumulator_mantissaValue (s : State) (wires : Vector F32 24) : (s.driveAccumulator wires).mantissaValue = wires[23] := rfl
@[simp] theorem State.driveAccumulator_p (s : State) (wires : Vector F32 24) : (s.driveAccumulator wires).p = s.p := rfl
@[simp] theorem State.driveAccumulator_recomposed (s : State) (wires : Vector F32 24) : (s.driveAccumulator wires).recomposed = s.recomposed := rfl

@[simp] theorem State.driveProducts_x (s : State) (p r : F32) : (s.driveProducts p r).x = s.x := rfl
@[simp] theorem State.driveProducts_sign (s : State) (p r : F32) : (s.driveProducts p r).sign = s.sign := rfl
@[simp] theorem State.driveProducts_exponent (s : State) (p r : F32) : (s.driveProducts p r).exponent = s.exponent := rfl
@[simp] theorem State.driveProducts_mantissa (s : State) (p r : F32) : (s.driveProducts p r).mantissa = s.mantissa := rfl
@[simp] theorem State.driveProducts_k (s : State) (p r : F32) : (s.driveProducts p r).k = s.k := rfl
@[simp] theorem State.driveProducts_acc (s : State) (p r : F32) : (s.driveProducts p r).acc = s.acc := rfl
@[simp] theorem State.driveProducts_signValue (s : State) (p r : F32) : (s.driveProducts p r).signValue = s.signValue := rfl
@[simp] theorem State.driveProducts_exponentValue (s : State) (p r : F32) : (s.driveProducts p r).exponentValue = s.exponentValue := rfl
@[simp] theorem State.driveProducts_mantissaValue (s : State) (p r : F32) : (s.driveProducts p r).mantissaValue = s.mantissaValue := rfl
@[simp] theorem State.driveProducts_p (s : State) (p r : F32) : (s.driveProducts p r).p = p := rfl
@[simp] theorem State.driveProducts_recomposed (s : State) (p r : F32) : (s.driveProducts p r).recomposed = r := rfl

/-- Presenting operands that a word can carry drives that word. -/
theorem State.present_of_wellFormed (s : State) {i : Instr} (h : i.wellFormed = true) :
    s.present i = s.driveInput (s.inputWord i) := if_pos h

/-- Presenting an instruction drives `x` only. -/
theorem State.present_frame (s : State) (i : Instr) : s.present i = s.driveInput (s.present i).x := by
  unfold State.present
  split <;> rfl

end Sys2Proof.Machine
end

