-- ==== Sys2Proof/Laws/Ops.lean ====
section
/-!
SUPPORT. What each unit's shared operation can do, said once: the closed forms of the decoder units and of the Recomposer on the
values that the decoder units drive.
-/

namespace Sys2Proof.Machine

/-! ### The units FX, SD and ED -/

@[simp] theorem extractFields_joinFields (s : BitVec 1) (e : BitVec 8) (m : BitVec 23) :
    extractFields (joinFields s e m) = ⟨s, e, m⟩ := by
  simp [extractFields]

/-- SD copies the sign into the pattern of 1.0 (spec/42_field_decoder.md R151). -/
theorem signDecoder_eq (s : BitVec 1) : signDecoder s = joinFields s 127#8 0#23 := by
  revert s
  decide

/-- ED by fields (spec/42_field_decoder.md R153). -/
theorem exponentDecoder_eq (e : BitVec 8) :
    exponentDecoder e = if e = 0#8 then joinFields 0#1 0#8 0x400000#23 else joinFields 0#1 e 0#23 :=
  pow2_signedExponent e

theorem signedExponent_bounds (e : BitVec 8) : -127 ≤ signedExponent e ∧ signedExponent e ≤ 128 := by
  have := e.isLt
  simp only [signedExponent, Config.bias]
  omega

/-! ### The unit MA -/

theorem mod_pow_succ (n i : Nat) : n % 2 ^ (i + 1) = n % 2 ^ i + (if n.testBit i then 2 ^ i else 0) := by
  rw [Nat.mod_pow_succ, Nat.testBit_eq_decide_div_mod_eq]
  rcases Nat.mod_two_eq_zero_or_one (n / 2 ^ i) with h | h <;> simp [h]

/-- One stage on an accumulator that holds `1 + j * 2^-23`: it adds `2^i` to `j` where the mantissa bit is set
(spec/42_field_decoder.md R155). -/
theorem accumulatorStage_eq (m j : BitVec 23) (i : Nat) (hi : i < 23) (h : j.toNat + 2 ^ i < 2 ^ 23) :
    accumulatorStage m (joinFields 0#1 127#8 j) i =
      some (joinFields 0#1 127#8
        (BitVec.ofNat 23 (j.toNat + if m.toNat.testBit i then 2 ^ i else 0))) := by
  rw [accumulatorStage, mantissaBit, BitVec.getLsbD]
  split
  · exact fadd32_weight j i hi h
  · rw [add_zero, BitVec.ofNat_toNat, BitVec.setWidth_eq]

/-- The wire `acc_i`: the pattern of `1 + (mantissa mod 2^i) * 2^-23` (spec/42_field_decoder.md R157). -/
def accumulatorWire (m : BitVec 23) (i : Nat) : F32 :=
  joinFields 0#1 127#8 (BitVec.ofNat 23 (m.toNat % 2 ^ i))

theorem accumulatorStage_wire (m : BitVec 23) (i : Nat) (hi : i < 23) :
    accumulatorStage m (accumulatorWire m i) i = some (accumulatorWire m (i + 1)) := by
  have hp : 2 ^ i ≤ 2 ^ 22 := Nat.pow_le_pow_right (by norm_num) (by omega)
  have hlt : m.toNat % 2 ^ i < 2 ^ i := Nat.mod_lt _ (Nat.two_pow_pos i)
  have hj : (BitVec.ofNat 23 (m.toNat % 2 ^ i)).toNat = m.toNat % 2 ^ i := by
    rw [BitVec.toNat_ofNat, Nat.mod_eq_of_lt (by omega)]
  rw [accumulatorWire, accumulatorStage_eq m _ i hi (by rw [hj]; omega), hj, accumulatorWire, mod_pow_succ]

/-- Everything the chain of unit MA can do: it always answers, and wire `i` is `acc_i` (spec/42_field_decoder.md R157). -/
theorem accumulatorWires_eq (m : BitVec 23) (n : Nat) (hn : n ≤ 23) :
    accumulatorWires m n = some (Vector.ofFn fun i : Fin (n + 1) => accumulatorWire m i) := by
  induction n with
  | zero =>
    rw [accumulatorWires]
    congr 1
    apply Vector.ext
    intro i hi
    obtain rfl : i = 0 := by omega
    simp only [Vector.getElem_ofFn, accumulatorWire, pow_zero, Nat.mod_one]
    exact (by decide : Config.plusOne = joinFields 0#1 127#8 0#23)
  | succ n ih =>
    have hback : (Vector.ofFn fun i : Fin (n + 1) => accumulatorWire m i).back = accumulatorWire m n := by
      simp [Vector.back]
    rw [accumulatorWires, ih (by omega)]
    simp only [hback, accumulatorStage_wire m n (by omega)]
    congr 1
    apply Vector.ext
    intro i hi
    simp only [Vector.getElem_push, Vector.getElem_ofFn]
    split
    · rfl
    · exact congrArg (accumulatorWire m) (by omega)

/-- Everything unit MA can do: it always answers its 24 wires (spec/42_field_decoder.md R157). -/
theorem mantissaAccumulator_eq (m : BitVec 23) :
    mantissaAccumulator m = some (Vector.ofFn fun i : Fin 24 => accumulatorWire m i) := by
  unfold mantissaAccumulator
  exact accumulatorWires_eq m 23 le_rfl

/-- The last wire carries the whole mantissa (spec/42_field_decoder.md R157). -/
theorem accumulatorWire_last (m : BitVec 23) : accumulatorWire m 23 = joinFields 0#1 127#8 m := by
  rw [accumulatorWire, Nat.mod_eq_of_lt m.isLt, BitVec.ofNat_toNat, BitVec.setWidth_eq]

/-- Every wire lies in [1, 2) (spec/40_numerics.md R98 E3). -/
theorem accumulatorWire_inDomain (m : BitVec 23) (i : Nat) : inMantissaValueDomain (accumulatorWire m i) = true :=
  (inMantissaValueDomain_joinFields _ _ _).mpr ⟨rfl, rfl⟩

/-! ### The unit RM -/

/-- The recomposed pattern of a field triple (spec/43_recomposer.md R193): itself for a normalized exponent field, the
nearest-even half of `2^23 + M` for exponent field 0, the infinity for exponent field 255. -/
def recomposedOf (r : RawFields) : F32 :=
  if r.exponent = 0#8 then pack (r.sign == 1#1) (halfEven (2 ^ 23 + r.mantissa.toNat) 1)
  else if r.exponent = 255#8 then joinFields r.sign 255#8 0#23
  else joinFields r.sign r.exponent r.mantissa

/-- The first product of a field triple: the exponent value with the sign copied in. -/
def firstProductOf (r : RawFields) : F32 :=
  if r.exponent = 0#8 then joinFields r.sign 0#8 0x400000#23 else joinFields r.sign r.exponent 0#23

/-- Everything the Recomposer can do when it answers: both products are defined (spec/43_recomposer.md R190). -/
theorem recomposeProducts_eq_some {sv ev mv p r : F32} :
    recomposeProducts sv ev mv = some (p, r) ↔ fmul32 sv ev = some p ∧ fmul32 p mv = some r := by
  unfold recomposeProducts
  cases h : fmul32 sv ev with
  | none => simp
  | some q =>
    dsimp only
    cases h' : fmul32 q mv with
    | none =>
      simp only [Option.some.injEq, reduceCtorEq, false_iff]
      rintro ⟨rfl, h''⟩
      cases h'.symm.trans h''
    | some u =>
      simp only [Option.some.injEq, Prod.mk.injEq]
      refine ⟨?_, ?_⟩
      · rintro ⟨rfl, rfl⟩
        exact ⟨rfl, h'⟩
      · rintro ⟨rfl, h''⟩
        exact ⟨rfl, Option.some.inj (h'.symm.trans h'')⟩

/-- Everything the Recomposer can do on the values the decoder units drive: it answers the first product and the recomposed
pattern (spec/43_recomposer.md R190, R193). -/
theorem recomposeProducts_decoded (r : RawFields) :
    recomposeProducts (signDecoder r.sign) (exponentDecoder r.exponent) (joinFields 0#1 127#8 r.mantissa) =
      some (firstProductOf r, recomposedOf r) := by
  obtain ⟨s, e, m⟩ := r
  have hs : s ^^^ 0#1 = s := by simp
  simp only [recomposeProducts, signDecoder_eq, exponentDecoder_eq, firstProductOf, recomposedOf]
  by_cases h0 : e = 0#8
  · simp only [h0, if_true, fmul32_sign_least, hs, fmul32_least]
  · by_cases h255 : e = 255#8
    · subst h255
      simp only [if_neg h0, if_true, fmul32_comm (joinFields s 127#8 0#23), fmul32_infinity, BitVec.zero_xor, hs]
    · simp only [if_neg h0, if_neg h255, fmul32_comm (joinFields s 127#8 0#23),
        fmul32_normalized _ _ e _ h0 h255, BitVec.zero_xor, hs]

/-- The operand domain of the Recomposer is exactly what the decoder units can drive (spec/43_recomposer.md R191). -/
theorem inRecomposeDomain_iff (sv ev mv : F32) :
    inRecomposeDomain sv ev mv = true ↔
      ∃ r : RawFields, sv = signDecoder r.sign ∧ ev = exponentDecoder r.exponent ∧
        mv = joinFields 0#1 127#8 r.mantissa := by
  obtain ⟨s1, e1, m1, rfl⟩ := exists_joinFields sv
  obtain ⟨s2, e2, m2, rfl⟩ := exists_joinFields ev
  obtain ⟨s3, e3, m3, rfl⟩ := exists_joinFields mv
  simp only [inRecomposeDomain, Bool.and_eq_true, inSignValueDomain_joinFields, inExponentValueDomain_joinFields,
    inMantissaValueDomain_joinFields, signDecoder_eq, exponentDecoder_eq, joinFields_inj]
  constructor
  · rintro ⟨⟨⟨rfl, rfl⟩, rfl, h⟩, rfl, rfl⟩
    refine ⟨⟨s1, e2, m3⟩, ⟨rfl, rfl, rfl⟩, ?_, rfl, rfl, rfl⟩
    rcases h with ⟨rfl, rfl⟩ | ⟨h, rfl⟩
    · rfl
    · rw [if_neg h]
  · rintro ⟨⟨s, e, m⟩, ⟨rfl, rfl, rfl⟩, h, rfl, rfl, rfl⟩
    refine ⟨⟨⟨rfl, rfl⟩, ?_⟩, rfl, rfl⟩
    split at h
    · obtain ⟨rfl, rfl, rfl⟩ := joinFields_inj.mp h
      exact ⟨rfl, .inl ⟨rfl, rfl⟩⟩
    · obtain ⟨rfl, rfl, rfl⟩ := joinFields_inj.mp h
      exact ⟨rfl, .inr ⟨‹_›, rfl⟩⟩

/-- The word that carries decoded values, when those are the values the units give for `r`, is `r` joined
(spec/42_field_decoder.md R161). -/
theorem wordOfDecoded_decoded (r : RawFields) :
    wordOfDecoded (signDecoder r.sign) (exponentDecoder r.exponent) (joinFields 0#1 127#8 r.mantissa) =
      joinFields r.sign r.exponent r.mantissa := by
  simp only [wordOfDecoded, signDecoder_eq, exponentDecoder_eq, signOf_joinFields, mantissaOf_joinFields]
  split
  · rw [exponentOf_joinFields, ‹r.exponent = 0#8›]
  · rw [exponentOf_joinFields]

/-! ### The whole block -/

/-- Every signal as the function of the input word that its rule defines. -/
def settledOn (x : BitVec 32) : State where
  x := x
  sign := signOf x
  exponent := exponentOf x
  mantissa := mantissaOf x
  k := signedExponent (exponentOf x)
  acc := Vector.ofFn fun i : Fin 24 => accumulatorWire (mantissaOf x) i
  signValue := signDecoder (signOf x)
  exponentValue := exponentDecoder (exponentOf x)
  mantissaValue := joinFields 0#1 127#8 (mantissaOf x)
  p := firstProductOf (extractFields x)
  recomposed := recomposedOf (extractFields x)

/-- Everything an evaluation of the block can do: it always answers, and the state it answers depends on the input word alone. -/
theorem evaluate_eq (s : State) (x : BitVec 32) : s.evaluate x = .next (settledOn x) := by
  have h23 : (Vector.ofFn fun i : Fin 24 => accumulatorWire (mantissaOf x) i)[23] = joinFields 0#1 127#8 (mantissaOf x) := by
    rw [Vector.getElem_ofFn, accumulatorWire_last]
  obtain ⟨hp, hr⟩ := recomposeProducts_eq_some.mp (recomposeProducts_decoded (extractFields x))
  simp only [extractFields] at hp hr
  simp only [State.evaluate, extractFields, mantissaAccumulator_eq, h23, hp, hr]
  simp only [State.driveInput, State.driveRaw, State.driveSignValue, State.driveExponentValue, State.driveAccumulator,
    State.driveProducts, settledOn, extractFields, h23]

/-- Everything one unit can do on a state: what it drives, by the closed forms of the decoder units; RM as its products give. -/
theorem evaluateUnit_ma (s : State) :
    s.evaluateUnit .ma = some (s.driveAccumulator (Vector.ofFn fun i : Fin 24 => accumulatorWire s.mantissa i)) := by
  rw [State.evaluateUnit, mantissaAccumulator_eq, Option.map_some]

end Sys2Proof.Machine
end

