-- ==== Sys2Proof/Laws/Flags.lean ====
section
/-!
SUPPORT. The IEEE conditions of the roundings that the block makes (spec/40_numerics.md R98, R100): none for a 24-bit significand
in the normalized range, underflow and inexact for an odd half of a subnormal unit, none in the mantissa accumulator.
-/

namespace Sys2Proof.Machine

@[simp] theorem Conditions.none_or (c : Conditions) : Conditions.none.or c = c := by
  simp [Conditions.or, Conditions.none]

@[simp] theorem Conditions.or_none (c : Conditions) : c.or Conditions.none = c := by
  simp [Conditions.or, Conditions.none]

/-- A 24-bit significand in the normalized range rounds with no condition, however its magnitude is written. -/
theorem roundConditions_significand (m : BitVec 23) (t : Nat) (e : Int) (h1 : -126 ≤ 23 + t + e) (h2 : 23 + t + e ≤ 127) :
    roundConditions ((2 ^ 23 + m.toNat) * 2 ^ t) e = Conditions.none := by
  have hm := m.isLt
  have hpos : 2 ^ 23 + m.toNat ≠ 0 := by omega
  have hb : binade ((2 ^ 23 + m.toNat) * 2 ^ t) e = 23 + t + e := by
    rw [binade, log2_mul_pow _ _ hpos, log2_significand]
    push_cast
    omega
  have hexact : isExact ((2 ^ 23 + m.toNat) * 2 ^ t) e = true := by
    rw [isExact, hb, show (-(e - (23 + (t : Int) + e - 23))).toNat = t by omega, Nat.mul_mod_left]
    simp
  have hunits : roundedUnits ((2 ^ 23 + m.toNat) * 2 ^ t) e = 2 ^ 23 + m.toNat := by
    have hb' := binade_mul_pow (2 ^ 23 + m.toNat) t e hpos
    rw [roundedUnits_mul_pow _ _ _ hpos, roundedUnits, ← hb', hb, show e + (t : Int) - (23 + t + e - 23) = 0 by ring]
    simp
  have hmag : ¬ infinityMagnitude ≤ roundedMagnitude ((2 ^ 23 + m.toNat) * 2 ^ t) e := by
    rw [roundedMagnitude, hunits, hb, infinityMagnitude]
    omega
  rw [roundConditions, if_neg (Nat.mul_ne_zero hpos (Nat.two_pow_pos t).ne')]
  generalize (2 ^ 23 + m.toNat) * 2 ^ t = n at *
  simp [hexact, hmag, Conditions.none]

/-- The one product that can round: underflow and inexact exactly when the mantissa is odd (spec/40_numerics.md R98 E6). -/
theorem roundConditions_half (m : BitVec 23) :
    roundConditions ((2 ^ 23 + m.toNat) * 2 ^ 22) (-172) =
      { Conditions.none with underflow := m.getLsbD 0, inexact := m.getLsbD 0 } := by
  have hm := m.isLt
  have hpos : 2 ^ 23 + m.toNat ≠ 0 := by omega
  have hlog : Nat.log2 ((2 ^ 23 + m.toNat) * 2 ^ 22) = 45 := by rw [log2_mul_pow _ _ hpos, log2_significand]
  have hb : binade ((2 ^ 23 + m.toNat) * 2 ^ 22) (-172) = -126 := by
    rw [binade, hlog]
    omega
  have hmod : (2 ^ 23 + m.toNat) * 2 ^ 22 % 2 ^ 23 = m.toNat % 2 * 2 ^ 22 := by omega
  have hexact : isExact ((2 ^ 23 + m.toNat) * 2 ^ 22) (-172) = !m.getLsbD 0 := by
    rw [isExact, hb, show (-(-172 - (-126 - 23) : Int)).toNat = 23 from rfl, hmod, BitVec.getLsbD, Nat.testBit_zero]
    rcases Nat.mod_two_eq_zero_or_one m.toNat with h | h <;> simp [h]
  have hmag : ¬ infinityMagnitude ≤ roundedMagnitude ((2 ^ 23 + m.toNat) * 2 ^ 22) (-172) := by
    have hle := (halfEven_spec (2 ^ 23 + m.toNat) 1).2.1
    have hb' := binade_mul_pow (2 ^ 23 + m.toNat) 22 (-172) hpos
    rw [hb] at hb'
    have hunits : roundedUnits (2 ^ 23 + m.toNat) (-172 + (22 : Nat)) = halfEven (2 ^ 23 + m.toNat) 1 := by
      simp only [roundedUnits, ← hb']
      norm_num
    rw [roundedMagnitude, roundedUnits_mul_pow _ _ _ hpos, hunits, hb, infinityMagnitude]
    omega
  have hne : (2 ^ 23 + m.toNat) * 2 ^ 22 ≠ 0 := Nat.mul_ne_zero hpos (Nat.two_pow_pos 22).ne'
  obtain ⟨n, hn⟩ : ∃ n, n = (2 ^ 23 + m.toNat) * 2 ^ 22 := ⟨_, rfl⟩
  rw [← hn] at hlog hexact hmag hne ⊢
  simp [roundConditions, hne, hexact, hlog, hmag, Conditions.none]

/-- One addition of the mantissa accumulator raises no condition. -/
theorem fadd32Conditions_weight (j : BitVec 23) (i : Nat) (hi : i < 23) (h : j.toNat + 2 ^ i < 2 ^ 23) :
    fadd32Conditions (joinFields 0#1 127#8 j) (weight i) = Conditions.none := by
  have hj : (BitVec.ofNat 23 (j.toNat + 2 ^ i)).toNat = j.toNat + 2 ^ i := by
    rw [BitVec.toNat_ofNat, Nat.mod_eq_of_lt h]
  have hr := roundConditions_significand (BitVec.ofNat 23 (j.toNat + 2 ^ i)) (23 - i) ((i : Int) - 46) (by omega) (by omega)
  rw [hj] at hr
  rw [fadd32Conditions, val32_accumulator, val32_weight i hi]
  simp only [min_eq_right (show (i : Int) - 46 ≤ -23 by omega), signedUnits_accumulator j i hi, Int.natAbs_natCast, hr]

/-- The whole chain of unit MA raises no condition (spec/40_numerics.md R98 E3). -/
theorem accumulatorConditions_wires (m : BitVec 23) (n : Nat) (hn : n ≤ 23) :
    accumulatorConditions m (Vector.ofFn fun i : Fin 24 => accumulatorWire m i) n = Conditions.none := by
  induction n with
  | zero => rfl
  | succ n ih =>
    rw [accumulatorConditions, ih (by omega), Conditions.none_or]
    split
    · have hp : 2 ^ n ≤ 2 ^ 22 := Nat.pow_le_pow_right (by norm_num) (by omega)
      have hlt : m.toNat % 2 ^ n < 2 ^ n := Nat.mod_lt _ (Nat.two_pow_pos n)
      have hw : (Vector.ofFn fun i : Fin 24 => accumulatorWire m i).getD n Config.plusOne = accumulatorWire m n := by
        simp [Vector.getD, Array.getD, show n < 24 by omega]
      rw [hw, accumulatorWire]
      refine fadd32Conditions_weight _ n (by omega) ?_
      rw [BitVec.toNat_ofNat, Nat.mod_eq_of_lt (by omega)]
      omega
    · rfl

end Sys2Proof.Machine
end

