-- ==== Sys2Proof/Laws/PerInstr.lean ====
section
/-!
SUPPORT. The per-instruction statement `OperandWordFits`: the operand word of an instruction fits the one width its operation's
format has (spec/30_encoding.md R67, R70).
-/

/-- The encoded operand word is a number of the operation's width. -/
def Sys2Proof.Laws.OperandWordFits.Statement (i : Sys2Proof.Instr) : Prop :=
  Sys2Proof.encodeWord i < 2 ^ i.op.width

theorem Sys2Proof.Laws.OperandWordFits.extract (x : BitVec 32) :
    Sys2Proof.Laws.OperandWordFits.Statement (.extract x) := x.isLt

theorem Sys2Proof.Laws.OperandWordFits.decodeSign (sign : BitVec 1) :
    Sys2Proof.Laws.OperandWordFits.Statement (.decodeSign sign) := sign.isLt

theorem Sys2Proof.Laws.OperandWordFits.decodeExponent (exponent : BitVec 8) :
    Sys2Proof.Laws.OperandWordFits.Statement (.decodeExponent exponent) := exponent.isLt

theorem Sys2Proof.Laws.OperandWordFits.decodeMantissa (mantissa : BitVec 23) :
    Sys2Proof.Laws.OperandWordFits.Statement (.decodeMantissa mantissa) := mantissa.isLt

theorem Sys2Proof.Laws.OperandWordFits.decode (sign : BitVec 1) (exponent : BitVec 8) (mantissa : BitVec 23) :
    Sys2Proof.Laws.OperandWordFits.Statement (.decode sign exponent mantissa) :=
  (Sys2Proof.Machine.joinFields sign exponent mantissa).isLt

theorem Sys2Proof.Laws.OperandWordFits.recompose (signValue exponentValue mantissaValue : Sys2Proof.F32) :
    Sys2Proof.Laws.OperandWordFits.Statement (.recompose signValue exponentValue mantissaValue) :=
  (Sys2Proof.Machine.joinDecoded signValue exponentValue mantissaValue).isLt

theorem Sys2Proof.Laws.OperandWordFits.decompose (x : BitVec 32) :
    Sys2Proof.Laws.OperandWordFits.Statement (.decompose x) := x.isLt
end

