-- ==== Sys2Proof/Laws/Step.lean ====
section
/-!
SUPPORT. What an operation and a step can do, said once: each evaluates the whole block on one input word.
-/

namespace Sys2Proof.Machine

/-- Everything a well-formed operation can do: it answers the block settled on the word that carries its operands. -/
theorem exec_eq {i : Instr} (h : i.wellFormed = true) (s : State) : exec i s = .next (settledOn (s.inputWord i)) := by
  cases i with
  | recompose sv ev mv => exact (if_pos h).trans (evaluate_eq s _)
  | extract x => exact evaluate_eq s _
  | decodeSign sign => exact evaluate_eq s _
  | decodeExponent exponent => exact evaluate_eq s _
  | decodeMantissa mantissa => exact evaluate_eq s _
  | decode sign exponent mantissa => exact evaluate_eq s _
  | decompose x => exact evaluate_eq s _

/-- `recompose` on its domain answers the block settled on the word that carries its operands. -/
theorem exec_recompose_eq {sv ev mv : F32} (h : inRecomposeDomain sv ev mv = true) (s : State) :
    exec (.recompose sv ev mv) s = .next (settledOn (wordOfDecoded sv ev mv)) :=
  exec_eq (i := .recompose sv ev mv) h s

/-- Everything an operation that is not well formed can do: it is refused, and it is `recompose`. -/
theorem exec_refuses {i : Instr} (h : i.wellFormed = false) (s : State) :
    exec i s = .refused .recomposeOperandOutsideDomain := by
  cases i with
  | recompose sv ev mv => exact if_neg (by rw [show inRecomposeDomain sv ev mv = false from h]; decide)
  | extract x => cases h
  | decodeSign sign => cases h
  | decodeExponent exponent => cases h
  | decodeMantissa mantissa => cases h
  | decode sign exponent mantissa => cases h
  | decompose x => cases h

/-- An operation that answers a next state is well formed, and the state is the block settled on its word. -/
theorem exec_next {i : Instr} {s t : State} (h : exec i s = .next t) :
    i.wellFormed = true ∧ t = settledOn (s.inputWord i) := by
  cases hw : i.wellFormed with
  | false => rw [exec_refuses hw] at h; cases h
  | true => rw [exec_eq hw] at h; exact ⟨rfl, (Host.Outcome.next.inj h).symm⟩

/-- Everything a step can do: it answers the block settled on the present `x` (spec/10_state.md R26). -/
theorem step_eq (s : State) : step s = .next (settledOn s.x) := evaluate_eq s s.x

/-- A state is settled exactly when it is the block settled on its own `x`. -/
theorem settled_iff (s : State) : Settled s ↔ s = settledOn s.x := by
  rw [Settled, evaluate_eq, Host.Outcome.next.injEq]
  exact eq_comm

end Sys2Proof.Machine
end

