-- ==== Sys2Proof/Tests/Slice0.lean ====
section
/-!
SUPPORT. The model's own tests. Expected values are those of spec/95_test_vectors.md (the vector is named) or are worked out by hand
from the rule that is named. The second half gives, for every statement of the obligations that has hypotheses, operands and a
state that meet them.
-/

namespace Sys2Proof.Tests
open Sys2Proof Sys2Proof.Machine

/-- The state an outcome goes on with, if it does. -/
def after (o : Host.Outcome State Fault Refusal) : Option State :=
  match o with
  | .next t => some t
  | .fault _ => none
  | .refused _ => none

/-- A state that is not settled, whose signals are none of the values that the tested operations leave. -/
def marked : State :=
  { State.reset with x := 0x13579BDF#32, sign := 1#1, exponent := 0x77#8, mantissa := 0x123#23, k := 3,
                     signValue := 0xBF800000#32, exponentValue := 0x41000000#32, mantissaValue := 0x3F900000#32,
                     p := 0xC1000000#32, recomposed := 0xC1100000#32 }

/-! ### Well-formedness: one ill-formed term for each check -/

theorem test_wellFormed_accepts_domain_ends :
    (Instr.recompose 0x3F800000#32 0x00400000#32 0x3F800000#32).wellFormed = true ∧
    (Instr.recompose 0xBF800000#32 0x7F800000#32 0x3FFFFFFF#32).wellFormed = true ∧
    (Instr.recompose 0xBF800000#32 0x00800000#32 0x3FFFFFFF#32).wellFormed = true := by decide

theorem test_wellFormed_refuses_sign_value : (Instr.recompose 0x40000000#32 0x3F800000#32 0x3F800000#32).wellFormed = false := by
  decide

theorem test_wellFormed_refuses_exponent_value :
    (Instr.recompose 0x3F800000#32 0x00000000#32 0x3F800000#32).wellFormed = false ∧
    (Instr.recompose 0x3F800000#32 0x00800001#32 0x3F800000#32).wellFormed = false ∧
    (Instr.recompose 0x3F800000#32 0xBF800000#32 0x3F800000#32).wellFormed = false := by decide

theorem test_wellFormed_refuses_mantissa_value :
    (Instr.recompose 0x3F800000#32 0x3F800000#32 0x3F7FFFFF#32).wellFormed = false ∧
    (Instr.recompose 0x3F800000#32 0x3F800000#32 0x40000000#32).wellFormed = false := by decide

/-! ### Decoding: one word per operation, written out from the formats of spec/30_encoding.md R60 to R62, R67 -/

/-- S2, -2.0: sign 1, exponent 10000000, mantissa 0. -/
theorem test_decode_extract : decodeWord .extract 32 0b11000000000000000000000000000000 = .ok (.extract 0xC0000000#32) := by decide

theorem test_decode_decodeSign : decodeWord .decodeSign 1 0b1 = .ok (.decodeSign 1#1) := by decide

/-- The top bit of the field set: it is read unsigned. -/
theorem test_decode_decodeExponent : decodeWord .decodeExponent 8 0b10000100 = .ok (.decodeExponent 132#8) := by decide

/-- P1 step 4. -/
theorem test_decode_decodeMantissa :
    decodeWord .decodeMantissa 23 0b10000000000000000000000 = .ok (.decodeMantissa 0x400000#23) := by decide

/-- E12: sign 1, exponent 10111101, mantissa 01011011011111011101111. -/
theorem test_decode_decode :
    decodeWord .decode 32 0b11011110101011011011111011101111 = .ok (.decode 1#1 0xBD#8 0x2DBEEF#23) := by decide

/-- P2 step 3: three W32 words, signValue highest. -/
theorem test_decode_recompose :
    decodeWord .recompose 96 0xBF800000004000003F800003 = .ok (.recompose 0xBF800000#32 0x00400000#32 0x3F800003#32) := by decide

theorem test_decode_decompose : decodeWord .decompose 32 0b00111111110000000000000000000000 = .ok (.decompose 0x3FC00000#32) := by
  decide

theorem test_decode_rejects_by_name :
    decodeWord .decode 31 0 = .error (.wrongWidth .decode 31) ∧
    decodeWord .decodeMantissa 23 0x800000 = .error (.valueTooWide .decodeMantissa 0x800000) := by decide

theorem test_table_word :
    decodeTableWord 32 0x3F800000 = some (.decompose 0x3F800000#32) ∧ decodeTableWord 8 0xFF = some (.decodeExponent 255#8) ∧
    decodeTableWord 24 0x400000 = some (.decodeMantissa 0x400000#23) ∧ decodeTableWord 24 0x800000 = none ∧
    decodeTableWord 16 0 = none := by decide

/-! ### Operations -/

/-- E12 and E2: every field boundary. -/
theorem test_extract_fields :
    (after (exec (.extract 0xDEADBEEF#32) marked)).map (fun t => (t.sign, t.exponent, t.mantissa)) =
      some (1#1, 0xBD#8, 0x2DBEEF#23) ∧
    (after (exec (.extract 0xFFFFFFFF#32) marked)).map (·.read .extract) =
      some (.rawFields ⟨1#1, 0xFF#8, 0x7FFFFF#23⟩) := by decide +kernel

/-- E3: one bit next to a boundary; and every other signal follows the new word too (30 R67, 70 R270; -0.0 is vector X2's sign). -/
theorem test_extract_drives_the_block :
    (after (exec (.extract 0x80000000#32) State.reset)).map (fun t => (t.x, t.sign, t.exponent, t.signValue, t.recomposed)) =
      some (0x80000000#32, 1#1, 0x00#8, 0xBF800000#32, 0x80400000#32) := by decide +kernel

/-- DS1 and DS2, the complete truth table. -/
theorem test_decodeSign :
    (after (exec (.decodeSign 0#1) marked)).map (·.signValue) = some 0x3F800000#32 ∧
    (after (exec (.decodeSign 1#1) marked)).map (·.signValue) = some 0xBF800000#32 := by decide +kernel

/-- The operand stands in bit 31 of the word, and the other fields of the word stay. -/
theorem test_decodeSign_word :
    (after (exec (.decodeSign 1#1) (State.reset.driveInput 0x3FC00000#32))).map (fun t => (t.x, t.recomposed)) =
      some (0xBFC00000#32, 0xBFC00000#32) := by decide +kernel

/-- DE1 and DE12: the two ends; NV5: the field is not signed. -/
theorem test_decodeExponent_ends :
    (after (exec (.decodeExponent 0#8) marked)).map (fun t => (t.k, t.exponentValue)) = some (-127, 0x00400000#32) ∧
    (after (exec (.decodeExponent 255#8) marked)).map (fun t => (t.k, t.exponentValue)) = some (128, 0x7F800000#32) := by
  decide +kernel

/-- DE9 and DE11. -/
theorem test_decodeExponent_middle :
    (after (exec (.decodeExponent 0x84#8) marked)).map (fun t => (t.k, t.exponentValue)) = some (5, 0x42000000#32) ∧
    (after (exec (.decodeExponent 254#8) marked)).map (fun t => (t.k, t.exponentValue)) = some (127, 0x7F000000#32) := by
  decide +kernel

/-- DM8 and its accumulator trace. -/
theorem test_decodeMantissa_trace :
    (after (exec (.decodeMantissa 0x600001#23) marked)).map
      (fun t => (t.acc[0], t.acc[1], t.acc[21], t.acc[22], t.mantissaValue)) =
      some (0x3F800000#32, 0x3F800001#32, 0x3F800001#32, 0x3FA00001#32, 0x3FE00001#32) := by decide +kernel

/-- DM12: all 23 additions. -/
theorem test_decodeMantissa_all :
    (after (exec (.decodeMantissa 0x7FFFFF#23) marked)).map (·.mantissaValue) = some 0x3FFFFFFF#32 := by decide +kernel

/-- P2 step 2. -/
theorem test_decode_composite :
    (after (exec (.decode 1#1 0x00#8 0x000003#23) marked)).map
      (fun t => (t.signValue, t.k, t.exponentValue, t.acc[1], t.acc[2], t.mantissaValue)) =
      some (0xBF800000#32, -127, 0x00400000#32, 0x3F800001#32, 0x3F800003#32, 0x3F800003#32) := by decide +kernel

/-- P2 step 3: a tie, rounded up to even; its operands stand on RM's inputs for the word 0x80000003. -/
theorem test_recompose_tie :
    (after (exec (.recompose 0xBF800000#32 0x00400000#32 0x3F800003#32) marked)).map (fun t => (t.x, t.p, t.recomposed)) =
      some (0x80000003#32, 0x80400000#32, 0x80400002#32) := by decide +kernel

/-- P1 step 5: the recomposition of 1.5, its operands on the inputs of RM. -/
theorem test_recompose_exact :
    (after (exec (.recompose 0x3F800000#32 0x3F800000#32 0x3FC00000#32) marked)).map
      (fun t => (t.signValue, t.exponentValue, t.mantissaValue, t.p, t.recomposed)) =
      some (0x3F800000#32, 0x3F800000#32, 0x3FC00000#32, 0x3F800000#32, 0x3FC00000#32) := by decide +kernel

/-- NV4 turned round: an operand outside the domain is refused by name, not given a NaN (93 U4). -/
theorem test_recompose_refuses :
    exec (.recompose 0x3F800000#32 0x00000000#32 0x3F800000#32) marked = .refused .recomposeOperandOutsideDomain := by rfl

/-- X4 and X8: a tie rounded down to even, and one that carries into the normalized range. -/
theorem test_decompose_rounding :
    (after (exec (.decompose 0x00000001#32) marked)).map (·.recomposed) = some 0x00400000#32 ∧
    (after (exec (.decompose 0x007FFFFF#32) marked)).map (·.recomposed) = some 0x00800000#32 := by decide +kernel

/-- P3 step 1: a NaN; its three fields and what they decode to. -/
theorem test_decompose_nan :
    (after (exec (.decompose 0xFFC12345#32) marked)).map (fun t => (t.sign, t.exponent, t.mantissa, t.signValue)) =
      some (1#1, 0xFF#8, 0x412345#23, 0xBF800000#32) ∧
    (after (exec (.decompose 0xFFC12345#32) marked)).map
      (fun t => (t.k, t.exponentValue, t.mantissaValue, t.p, t.recomposed)) =
      some (128, 0x7F800000#32, 0x3FC12345#32, 0xFF800000#32, 0xFF800000#32) := by decide +kernel

/-- X25, presented and stepped: the round trip of a normalized input. -/
theorem test_step_decompose :
    (after (step (marked.present (.decompose 0xDEADBEEF#32)))).map (fun t => (t.x, t.exponentValue, t.p, t.recomposed)) =
      some (0xDEADBEEF#32, 0x5E800000#32, 0xDE800000#32, 0xDEADBEEF#32) := by decide +kernel

/-- P1 step 3, as a table word presented; and a word whose operands no word carries changes nothing. -/
theorem test_step_table_word :
    (after (step (State.reset.withFetchWord 8 0x7F))).map (fun t => (t.k, t.exponentValue)) = some (0, 0x3F800000#32) ∧
    State.reset.withFetchWord 96 0 = State.reset := by decide +kernel

/-- 20 R42: in a mixed order, here the lanes 1, 0, 3, 2 at rising addresses, the sign byte of 0x80000003 still lands on
`x[31:24]`. -/
theorem test_mixed_byte_order :
    inputWordOfBytes (Equiv.swap 0 1 * Equiv.swap 2 3) #v[0x00#8, 0x03#8, 0x80#8, 0x00#8] = 0x80000003#32 := by decide

/-! ### Arithmetic -/

/-- A1, A3, A4, A5: overflow and the three ties, `round32` on magnitudes in units of 2^-150. -/
theorem test_round32 :
    round32 false 1 128 = 0x7F800000#32 ∧ round32 true (2 ^ 23 + 1) (-150) = 0x80400000#32 ∧
    round32 false (2 ^ 23 + 3) (-150) = 0x00400002#32 ∧ round32 false (2 ^ 24 - 1) (-150) = 0x00800000#32 := by decide

/-- A15, A16; an infinite addend has no answer. -/
theorem test_fadd32 :
    fadd32 0x3FFFFFFE#32 0x34000000#32 = some 0x3FFFFFFF#32 ∧ fadd32 0x3FC00000#32 0x3E800000#32 = some 0x3FE00000#32 ∧
    fadd32 0x3F800000#32 0x7F800000#32 = none := by decide

/-- A zero sum is +0 unless both operands are -0 (40 R96). -/
theorem test_fadd32_zero :
    fadd32 0x80000000#32 0x80000000#32 = some 0x80000000#32 ∧ fadd32 0x80000000#32 0x00000000#32 = some 0x00000000#32 ∧
    fadd32 0x3F800000#32 0xBF800000#32 = some 0x00000000#32 := by decide

/-- A18 to A23. -/
theorem test_fmul32 :
    fmul32 0x00400000#32 0x3F800001#32 = some 0x00400000#32 ∧ fmul32 0x00400000#32 0x3F800003#32 = some 0x00400002#32 ∧
    fmul32 0x00400000#32 0x3FFFFFFF#32 = some 0x00800000#32 ∧ fmul32 0x7F000000#32 0x3FFFFFFF#32 = some 0x7F7FFFFF#32 ∧
    fmul32 0xFF800000#32 0x3FC00000#32 = some 0xFF800000#32 ∧ fmul32 0x42000000#32 0x3FA9AE14#32 = some 0x4229AE14#32 := by decide

/-- A24 and A25. -/
theorem test_eq32 : eq32 0x00000000#32 0x80000000#32 = true ∧ eq32 0x7FC00000#32 0x7FC00000#32 = false := by decide

/-- 40 R100: overflow and inexact at exponent field 255; underflow and inexact at field 0 with an odd mantissa. -/
theorem test_conditions :
    (after (exec (.decompose 0x7F800000#32) marked)).map State.conditions = some ⟨false, false, true, false, true⟩ ∧
    (after (exec (.decompose 0x00000001#32) marked)).map State.conditions = some ⟨false, false, false, true, true⟩ := by
  decide +kernel

/-! ### Operands and states that meet the hypotheses of the obligations -/

theorem test_witness_StepRunsTheDecodedOperation :
    Op.extract.width = 32 ∧ decodeWord .extract 32 marked.x.toNat = .ok (.extract 0x13579BDF#32) ∧
    decodeWord .decode 32 marked.x.toNat = .ok (.decode 0#1 0x26#8 0x579BDF#23) := by decide

theorem test_witness_EveryOperationIsEvaluatedInEveryStep : (after (step marked)).isSome = true := by decide +kernel

theorem test_witness_PresentedOperationIsRun :
    decodeTableWord 1 1 = some (.decodeSign 1#1) ∧ decodeTableWord 96 0x3F800000004000003F800000 =
      some (.recompose 0x3F800000#32 0x00400000#32 0x3F800000#32) ∧
    (Instr.recompose 0x3F800000#32 0x00400000#32 0x3F800000#32).wellFormed = true := by decide

/-- Two states with the same `x` that differ in every other signal. -/
theorem test_witness_ExtractReadsAndDrivesNothingElse :
    marked.x = 0x13579BDF#32 ∧ (State.reset.driveInput 0x13579BDF#32).x = 0x13579BDF#32 ∧
    marked.signValue ≠ (State.reset.driveInput 0x13579BDF#32).signValue := by decide

theorem test_witness_EncodeOfDecodeIsTheWord : decodeWord .decode 32 0x80000000 = .ok (.decode 1#1 0#8 0#23) := by decide

theorem test_witness_OnlyMisfitWordsAreRejected :
    2 ≠ Op.decodeSign.width ∧ 2 ^ Op.decodeExponent.width ≤ 256 ∧ 255 < 2 ^ Op.decodeExponent.width := by decide

theorem test_witness_SignTellsNegativeValues : patternClass 0xFF800000#32 ≠ .nan ∧ patternClass 0x80000000#32 ≠ .nan := by decide

theorem test_witness_EveryFieldTripleIsOfOneWord :
    (after (exec (.extract 0x80000001#32) marked)).map (fun t => (t.sign, t.exponent, t.mantissa)) = some (1#1, 0#8, 1#23) := by
  decide +kernel

theorem test_witness_ExponentValueIsTheExactPowerOfTwo : 254#8 ≠ 255#8 ∧ 0#8 ≠ 255#8 ∧ (255#8 = 255#8) := by decide

theorem test_witness_AccumulationOrderIsNotObservable : (List.range 23).reverse.Perm (List.range 23) :=
  List.reverse_perm _

theorem test_witness_DecodeIsItsThreePartsInAnyOrder :
    [Instr.decodeMantissa 1#23, .decodeExponent 0#8, .decodeSign 1#1].Perm
      [.decodeSign 1#1, .decodeExponent 0#8, .decodeMantissa 1#23] ∧
    [FunctionalUnit.ma, .ed, .sd].Perm [.sd, .ed, .ma] :=
  ⟨List.reverse_perm [Instr.decodeSign 1#1, .decodeExponent 0#8, .decodeMantissa 1#23],
    List.reverse_perm [FunctionalUnit.sd, .ed, .ma]⟩

theorem test_witness_RecomposeMultipliesLeftToRight :
    inRecomposeDomain 0xBF800000#32 0x00400000#32 0x3FFFFFFF#32 = true ∧
    inRecomposeDomain 0x3F800000#32 0x7F800000#32 0x3F800000#32 = true := by decide

theorem test_witness_RecomposeRefusesForeignOperands :
    inRecomposeDomain 0x7FC00000#32 0x3F800000#32 0x3F800000#32 = false ∧
    inRecomposeDomain 0x3F800000#32 0x00800000#32 0x40000000#32 = false := by decide

theorem test_witness_ProductOrderIsNotObservable :
    inRecomposeDomain 0xBF800000#32 0x00400000#32 0x3F800003#32 = true ∧
    [0x3F800003#32, 0x00400000#32, 0xBF800000#32].Perm [0xBF800000#32, 0x00400000#32, 0x3F800003#32] :=
  ⟨by decide, List.reverse_perm [0xBF800000#32, 0x00400000#32, 0x3F800003#32]⟩

theorem test_witness_RecomposedIsNeverNaNOrZero :
    (after (exec (.decompose 0x7FC00000#32) marked)).map (·.recomposed) = some 0x7F800000#32 := by decide +kernel

theorem test_witness_NormalizedInputsRoundTrip :
    (0x00800000#32).extractLsb' 23 8 ≠ 0#8 ∧ (0x00800000#32).extractLsb' 23 8 ≠ 255#8 ∧
    (0x7F7FFFFF#32).extractLsb' 23 8 ≠ 0#8 ∧ (0x7F7FFFFF#32).extractLsb' 23 8 ≠ 255#8 := by decide

theorem test_witness_ExponentZeroInputsDeviate :
    (0x007FFFFF#32).extractLsb' 23 8 = 0#8 ∧ (0x80000000#32).extractLsb' 23 8 = 0#8 := by decide

theorem test_witness_ExponentAllOnesGivesInfinity :
    (0x7F800000#32).extractLsb' 23 8 = 255#8 ∧ (0x7F800000#32).extractLsb' 0 23 = 0#23 ∧
    (0xFFFFFFFF#32).extractLsb' 23 8 = 255#8 ∧ (0xFFFFFFFF#32).extractLsb' 0 23 ≠ 0#23 := by decide

theorem test_witness_RecomposedIsTheProductRoundedOnce :
    0#8 ≠ 255#8 ∧ magnitude (2 ^ 23 + 3) (-150) =
      (2 : ℚ) ^ (((0#8).toNat : Int) - 127) * (1 + ((3#23).toNat : ℚ) / 2 ^ 23) := by
  refine ⟨by decide, ?_⟩
  norm_num [magnitude, zpow_neg]

/-- Each unit evaluates in `marked`, and each implication of the frame has a unit that it is about. -/
theorem test_witness_UnitsDriveOnlyTheirOwnSignals :
    (marked.evaluateUnit .fx).isSome = true ∧ (marked.evaluateUnit .sd).isSome = true ∧ (marked.evaluateUnit .ed).isSome = true ∧
    (marked.evaluateUnit .ma).isSome = true ∧ (marked.evaluateUnit .rm).isSome = true := by decide +kernel

theorem test_witness_OperationsChangeOnlyWhatTheirOperandReaches :
    Settled State.reset := (settled_iff _).mpr (by decide +kernel)

theorem test_witness_OperationsChangeOnlyWhatTheirOperandReaches_next :
    (after (exec (.decodeSign 1#1) State.reset)).isSome = true ∧
    (after (exec (.decodeExponent 255#8) State.reset)).isSome = true ∧
    (after (exec (.decodeMantissa 1#23) State.reset)).isSome = true := by decide +kernel

theorem test_witness_OperationsReadOnlyTheirOperands :
    (after (exec (.decompose 0#32) marked)).isSome = true ∧ (after (exec (.decodeSign 1#1) marked)).isSome = true ∧
    (Instr.decompose 0#32).op ∉ [Op.decodeSign, Op.decodeExponent, Op.decodeMantissa] := by decide +kernel

/-- P3: a NaN, then a normal number. -/
theorem test_witness_EvaluationsAreIndependent :
    (after (execAll [.decompose 0xFFC12345#32, .decompose 0x40490FDB#32] marked)).map (·.recomposed) = some 0x40490FDB#32 := by
  decide +kernel

theorem test_witness_EvaluationIsIdempotent : (after (exec (.decodeExponent 255#8) marked)).isSome = true := by decide +kernel

theorem test_witness_NoOperationRaisesAnException :
    (Instr.recompose 0xBF800000#32 0x7F800000#32 0x3FFFFFFF#32).wellFormed = true ∧ (Instr.decompose 0x7FC00000#32).wellFormed = true := by
  decide

theorem test_witness_PatternsHaveTheirBinary32Value :
    (1#8 ≠ 0#8 ∧ 1#8 ≠ 255#8) ∧ (254#8 ≠ 0#8 ∧ 254#8 ≠ 255#8) ∧ 0x7FFFFF#23 ≠ 0#23 := by decide

theorem test_witness_RoundingIsToNearestEven : (2 ^ 24 - 1 : Nat) ≠ 0 := by decide

theorem test_witness_RoundingDependsOnTheValueOnly : magnitude 4 (-1) = magnitude 1 1 := by
  norm_num [magnitude]

theorem test_witness_RepresentableValuesRoundToThemselves :
    val32 0x80000001#32 = .finite true 1 (-149) ∧ val32 0x7F7FFFFF#32 = .finite false (2 ^ 24 - 1) 104 := by decide

theorem test_witness_PowersOfTwoAndWeights :
    ((-126 : Int) ≤ -126 ∧ (-126 : Int) ≤ 127) ∧ ((-126 : Int) ≤ 127 ∧ (127 : Int) ≤ 127) ∧ 22 < 23 := by decide

/-- 1.0 + 2.0, magnitude 3; and 1.0 - 1.0, magnitude 0; and an infinite operand. -/
theorem test_witness_AdditionIsTheExactSumRounded :
    (val32 0x3F800000#32).toRat? = some 1 ∧ (val32 0x40000000#32).toRat? = some 2 ∧ (1 : ℚ) + 2 ≠ 0 ∧
    magnitude 3 0 = |(1 : ℚ) + 2| ∧ (val32 0xBF800000#32).toRat? = some (-1) ∧ (1 : ℚ) + -1 = 0 ∧
    (val32 0x7F800000#32).toRat? = none := by
  have h1 : val32 0x3F800000#32 = .finite false (2 ^ 23) (-23) := by decide
  have h2 : val32 0x40000000#32 = .finite false (2 ^ 23) (-22) := by decide
  have h3 : val32 0xBF800000#32 = .finite true (2 ^ 23) (-23) := by decide
  have h4 : val32 0x7F800000#32 = .inf false := by decide
  rw [h1, h2, h3, h4]
  norm_num [Val32.toRat?, magnitude, zpow_neg]

/-- 1.0 times 2.0, magnitude 2; and infinity times 1.0; and a NaN; and zero with infinity. -/
theorem test_witness_MultiplicationIsTheExactProductRounded :
    (val32 0x3F800000#32).toRat? = some 1 ∧ magnitude 1 0 = |(1 : ℚ) * 1| ∧
    patternClass 0x7F800000#32 = .infinity ∧ patternClass 0x3F800000#32 = .normalized ∧
    patternClass 0x7FC00000#32 = .nan ∧ patternClass 0x80000000#32 = .zero := by
  have h1 : val32 0x3F800000#32 = .finite false (2 ^ 23) (-23) := by decide
  refine ⟨?_, ?_, by decide, by decide, by decide, by decide⟩
  · rw [h1]
    norm_num [Val32.toRat?, magnitude, zpow_neg]
  · norm_num [magnitude]

theorem test_witness_IeeeEqualityIsEqualityOfValues :
    patternClass 0x7F800001#32 = .nan ∧ patternClass 0x00000000#32 ≠ .nan ∧ patternClass 0x80000000#32 ≠ .nan ∧
    val32 0x00000000#32 = .finite false 0 (-149) ∧ val32 0x80000000#32 = .finite true 0 (-149) := by decide

/-- From a state that is not settled. -/
theorem test_witness_EveryEvaluationSettlesTheBlock :
    marked ≠ settledOn marked.x ∧ (after (step marked)).isSome = true ∧ (after (exec (.decodeMantissa 1#23) marked)).isSome = true := by
  decide +kernel

/-- From a state with a signal out of range. -/
theorem test_witness_StepKeepsSignalsInRange :
    ¬ SignalsInRange { marked with k := 200 } ∧ (after (step { marked with k := 200 })).isSome = true ∧
    (after (exec (.decodeSign 1#1) { marked with k := 200 })).isSome = true := by decide +kernel

end Sys2Proof.Tests
end

section
/-!
PROOFS. The machine around the operations (spec/10_state.md): the step as one function of the input word.
-/

namespace Sys2Proof.Machine

/-- `decompose` asks nothing of its operand, and the word that carries it is the operand itself (spec/44_pipeline.md R210). -/
theorem exec_decompose_eq (x : BitVec 32) (s : State) : exec (.decompose x) s = .next (settledOn x) :=
  exec_eq (i := .decompose x) rfl s

/-- Settles O2: the one function is `settledOn`, which takes no state. -/
theorem stepIsOneTotalFunctionOfTheInput : Obligations.StepIsOneTotalFunctionOfTheInput := by
  unfold Obligations.StepIsOneTotalFunctionOfTheInput
  exact ⟨settledOn, step_eq, exec_decompose_eq⟩

end Sys2Proof.Machine
end

section
/-!
PROOFS. The Field Extractor (spec/41_field_extractor.md): the fields as bit positions of the word, and the word as their join.
-/

namespace Sys2Proof.Machine

/-- `extract` asks nothing of its operand, and the word that carries it is the operand itself (spec/41_field_extractor.md R134). -/
theorem exec_extract_eq (x : BitVec 32) (s : State) : exec (.extract x) s = .next (settledOn x) :=
  exec_eq (i := .extract x) rfl s

/-! ### The fields as bit positions -/

theorem signOf_eq_extractLsb' (x : BitVec 32) : signOf x = x.extractLsb' 31 1 := by
  apply BitVec.eq_of_toNat_eq
  rw [toNat_signOf, BitVec.extractLsb'_toNat, Nat.shiftRight_eq_div_pow]
  omega

theorem exponentOf_eq_extractLsb' (x : BitVec 32) : exponentOf x = x.extractLsb' 23 8 := by
  apply BitVec.eq_of_toNat_eq
  rw [toNat_exponentOf, BitVec.extractLsb'_toNat, Nat.shiftRight_eq_div_pow]

theorem mantissaOf_eq_extractLsb' (x : BitVec 32) : mantissaOf x = x.extractLsb' 0 23 := by
  apply BitVec.eq_of_toNat_eq
  rw [toNat_mantissaOf, BitVec.extractLsb'_toNat, Nat.shiftRight_zero]

/-! ### The join of the fields as shifts -/

/-- The fields do not overlap: every bit of the word is a bit of the mantissa, of the exponent or of the sign, and the other two
shifted fields are 0 there (spec/41_field_extractor.md R135). -/
theorem shift_or_eq_joinFields (s : BitVec 1) (e : BitVec 8) (m : BitVec 23) :
    ((s.setWidth 32 <<< 31) ||| (e.setWidth 32 <<< 23) ||| m.setWidth 32) = joinFields s e m := by
  apply BitVec.eq_of_getLsbD_eq
  intro i hi
  simp only [joinFields, BitVec.getLsbD_or, BitVec.getLsbD_shiftLeft, BitVec.getLsbD_setWidth, BitVec.getLsbD_append]
  rcases Nat.lt_or_ge i 23 with hmant | hmant
  · simp [hmant, hi, show i < 31 by omega]
  have hm : m.getLsbD i = false := m.getLsbD_of_ge i hmant
  rcases Nat.lt_or_ge i 31 with hexp | hexp
  · simp [hm, hmant.not_gt, hexp, hi, show i - 23 < 8 by omega, show i - 23 < 32 by omega]
  · have he : e.getLsbD (i - 23) = false := e.getLsbD_of_ge _ (by omega)
    simp [hm, he, hmant.not_gt, hexp.not_gt, hi, show ¬ i - 23 < 8 by omega, show i - 31 < 32 by omega, Nat.sub_sub]

/-! ### The statements -/

/-- Settles O13: the fields of the settled block join to the word, and the two forms of R135 are the same join. -/
theorem fieldsReconstructTheWord : Obligations.FieldsReconstructTheWord := by
  unfold Obligations.FieldsReconstructTheWord
  intro x s
  have hjoin := joinFields_fieldsOf x
  exact ⟨settledOn x, exec_extract_eq x s, hjoin, (shift_or_eq_joinFields _ _ _).trans hjoin⟩

/-- Settles O11: the shift-and-mask forms are what FX computes, and each is the extraction of its bit positions. -/
theorem extractIsolatesTheThreeFields : Obligations.ExtractIsolatesTheThreeFields := by
  unfold Obligations.ExtractIsolatesTheThreeFields
  intro x s
  exact ⟨settledOn x, exec_extract_eq x s, rfl,
    signOf_eq_extractLsb' x, exponentOf_eq_extractLsb' x, mantissaOf_eq_extractLsb' x, rfl, rfl, rfl⟩

/-- Settles O12: from either state FX drives the fields of the one word `x`, and so does the evaluation of the block. -/
theorem extractReadsAndDrivesNothingElse : Obligations.ExtractReadsAndDrivesNothingElse := by
  unfold Obligations.ExtractReadsAndDrivesNothingElse
  rintro x s s' rfl hx
  refine ⟨s.driveRaw (extractFields s.x), s'.driveRaw (extractFields s.x), settledOn s.x,
    rfl, ?_, exec_extract_eq s.x s, rfl, rfl, rfl, rfl, rfl, rfl, rfl⟩
  rw [State.evaluateUnit, hx]

end Sys2Proof.Machine
end

section
/-!
PROOFS. The Field Decoder (spec/42_field_decoder.md): what SD, ED and MA drive for their operands.
-/

namespace Sys2Proof.Machine

/-! ### The operations as evaluations of the word with one field replaced -/

theorem exec_decodeSign_eq (sign : BitVec 1) (s : State) :
    exec (.decodeSign sign) s = .next (settledOn (withSign s.x sign)) :=
  exec_eq (i := .decodeSign sign) rfl s

theorem exec_decodeExponent_eq (exponent : BitVec 8) (s : State) :
    exec (.decodeExponent exponent) s = .next (settledOn (withExponent s.x exponent)) :=
  exec_eq (i := .decodeExponent exponent) rfl s

theorem exec_decodeMantissa_eq (mantissa : BitVec 23) (s : State) :
    exec (.decodeMantissa mantissa) s = .next (settledOn (withMantissa s.x mantissa)) :=
  exec_eq (i := .decodeMantissa mantissa) rfl s

@[simp] theorem signOf_withSign (x : BitVec 32) (sign : BitVec 1) : signOf (withSign x sign) = sign :=
  signOf_joinFields _ _ _

@[simp] theorem exponentOf_withExponent (x : BitVec 32) (exponent : BitVec 8) :
    exponentOf (withExponent x exponent) = exponent :=
  exponentOf_joinFields _ _ _

@[simp] theorem mantissaOf_withMantissa (x : BitVec 32) (mantissa : BitVec 23) :
    mantissaOf (withMantissa x mantissa) = mantissa :=
  mantissaOf_joinFields _ _ _

/-! ### The wires of MA -/

/-- Everything a stage of MA can answer: the sum with its weight if the mantissa bit is set, else the accumulator passed on
(spec/42_field_decoder.md R155). -/
theorem accumulatorStage_eq_some_iff (mantissa : BitVec 23) (acc next : F32) (i : Nat) :
    accumulatorStage mantissa acc i = some next ↔
      if mantissa.getLsbD i = true then fadd32 acc (weight i) = some next else next = acc := by
  rw [accumulatorStage, mantissaBit]
  split
  · exact Iff.rfl
  · exact Option.some_inj.trans eq_comm

/-- The chain starts from 1.0 (spec/42_field_decoder.md R155). -/
@[simp] theorem accumulatorWire_zero (m : BitVec 23) : accumulatorWire m 0 = Config.plusOne := by
  rw [accumulatorWire, pow_zero, Nat.mod_one]
  decide

@[simp] theorem settledOn_acc_getElem (x : BitVec 32) (i : Nat) (hi : i < 24) :
    (settledOn x).acc[i] = accumulatorWire (mantissaOf x) i :=
  Vector.getElem_ofFn hi

theorem settledOn_mantissaValue_eq_acc (x : BitVec 32) : (settledOn x).mantissaValue = (settledOn x).acc[23] := by
  rw [settledOn_acc_getElem, accumulatorWire_last, settledOn]

/-! ### The statements -/

/-- Settles O21: neighbouring wires of the settled block are the two ends of one stage of MA. -/
theorem decodeMantissaIsTheStageChain : Obligations.DecodeMantissaIsTheStageChain := by
  unfold Obligations.DecodeMantissaIsTheStageChain
  intro mantissa s
  have hm := mantissaOf_withMantissa s.x mantissa
  refine ⟨settledOn (withMantissa s.x mantissa), exec_decodeMantissa_eq mantissa s, hm, ?_,
    settledOn_mantissaValue_eq_acc _, ?_⟩
  · rw [settledOn_acc_getElem, accumulatorWire_zero]
  · intro i hi
    have hstage := accumulatorStage_wire mantissa i hi
    rw [settledOn_acc_getElem, settledOn_acc_getElem, hm]
    exact (accumulatorStage_eq_some_iff mantissa _ _ i).mp hstage

/-- Settles O17: SD reads the replaced sign field, and its multiplexer is the stated choice. -/
theorem decodeSignGivesPlusOrMinusOne : Obligations.DecodeSignGivesPlusOrMinusOne := by
  unfold Obligations.DecodeSignGivesPlusOrMinusOne
  intro sign s
  have hs := signOf_withSign s.x sign
  exact ⟨settledOn (withSign s.x sign), exec_decodeSign_eq sign s, hs, congrArg signDecoder hs⟩

/-- Settles O18: ED reads the replaced exponent field, and the range of `k` is the range of an 8-bit field less the bias. -/
theorem decodeExponentUnbiasesAndExponentiates : Obligations.DecodeExponentUnbiasesAndExponentiates := by
  unfold Obligations.DecodeExponentUnbiasesAndExponentiates
  intro exponent s
  have he := exponentOf_withExponent s.x exponent
  obtain ⟨hlow, hhigh⟩ := signedExponent_bounds (exponentOf (withExponent s.x exponent))
  exact ⟨settledOn (withExponent s.x exponent), exec_decodeExponent_eq exponent s, he,
    congrArg signedExponent he, hlow, hhigh, rfl⟩

end Sys2Proof.Machine
end

section
/-!
PROOFS. The Recomposer (spec/43_recomposer.md): the operands on RM's inputs and its two products.
-/

namespace Sys2Proof.Machine

/-- The word that carries operands of RM's domain brings exactly these to RM's inputs: the decoder units undo what is read back
(spec/42_field_decoder.md R161, spec/43_recomposer.md R191). -/
theorem settledOn_wordOfDecoded_operands {sv ev mv : F32} (h : inRecomposeDomain sv ev mv = true) :
    (settledOn (wordOfDecoded sv ev mv)).signValue = sv ∧ (settledOn (wordOfDecoded sv ev mv)).exponentValue = ev ∧
      (settledOn (wordOfDecoded sv ev mv)).mantissaValue = mv := by
  obtain ⟨r, rfl, rfl, rfl⟩ := (inRecomposeDomain_iff sv ev mv).mp h
  simp only [wordOfDecoded_decoded, settledOn, signOf_joinFields, exponentOf_joinFields, mantissaOf_joinFields, and_self]

/-- On every word, RM drives the two products of what stands on its inputs, associated left to right
(spec/43_recomposer.md R190). -/
theorem settledOn_products (x : BitVec 32) :
    fmul32 (settledOn x).signValue (settledOn x).exponentValue = some (settledOn x).p ∧
      fmul32 (settledOn x).p (settledOn x).mantissaValue = some (settledOn x).recomposed :=
  recomposeProducts_eq_some.mp (recomposeProducts_decoded (extractFields x))

/-- Settles O28: the operation settles the block on the word that carries its operands, and there RM multiplies what stands on
its inputs. -/
theorem recomposeMultipliesLeftToRight : Obligations.RecomposeMultipliesLeftToRight := by
  unfold Obligations.RecomposeMultipliesLeftToRight
  intro sv ev mv s h
  obtain ⟨hsign, hexponent, hmantissa⟩ := settledOn_wordOfDecoded_operands h
  have hproducts := settledOn_products (wordOfDecoded sv ev mv)
  rw [hsign, hexponent, hmantissa] at hproducts
  exact ⟨settledOn (wordOfDecoded sv ev mv), exec_recompose_eq h s, hsign, hexponent, hmantissa, hproducts⟩

end Sys2Proof.Machine
end

section
/-!
PROOFS. The whole pipeline (spec/44_pipeline.md): what one unit drives brings the next one back to the same word.
-/

namespace Sys2Proof.Machine

/-- `decode` asks nothing of its operands, and the word that carries them is their join (spec/42_field_decoder.md R161). -/
theorem exec_decode_eq (sign : BitVec 1) (exponent : BitVec 8) (mantissa : BitVec 23) (s : State) :
    exec (.decode sign exponent mantissa) s = .next (settledOn (joinFields sign exponent mantissa)) :=
  exec_eq (i := .decode sign exponent mantissa) rfl s

/-- The word that carries the fields of `x` is `x` (spec/41_field_extractor.md R135). -/
theorem joinFields_settledOn (x : BitVec 32) :
    joinFields (settledOn x).sign (settledOn x).exponent (settledOn x).mantissa = x :=
  joinFields_fieldsOf x

/-- What the decoder units drive always lies in RM's domain (spec/43_recomposer.md R191). -/
theorem inRecomposeDomain_settledOn (x : BitVec 32) :
    inRecomposeDomain (settledOn x).signValue (settledOn x).exponentValue (settledOn x).mantissaValue = true :=
  (inRecomposeDomain_iff _ _ _).mpr ⟨extractFields x, rfl, rfl, rfl⟩

/-- The word that carries the decoded values of `x` is `x` (spec/42_field_decoder.md R161). -/
theorem wordOfDecoded_settledOn (x : BitVec 32) :
    wordOfDecoded (settledOn x).signValue (settledOn x).exponentValue (settledOn x).mantissaValue = x :=
  (wordOfDecoded_decoded (extractFields x)).trans (joinFields_fieldsOf x)

/-- Decoding the fields that stand after `x` evaluates `x` again. -/
theorem exec_decode_settledOn (x : BitVec 32) (s : State) :
    exec (.decode (settledOn x).sign (settledOn x).exponent (settledOn x).mantissa) s = .next (settledOn x) := by
  rw [exec_decode_eq, joinFields_settledOn]

/-- Recomposing the values that stand after `x` evaluates `x` again. -/
theorem exec_recompose_settledOn (x : BitVec 32) (s : State) :
    exec (.recompose (settledOn x).signValue (settledOn x).exponentValue (settledOn x).mantissaValue) s =
      .next (settledOn x) := by
  rw [exec_recompose_eq (inRecomposeDomain_settledOn x), wordOfDecoded_settledOn]

/-- Settles O33: the fields and the decoded values of `x` each fix the word `x`, so all three operations of the sequence and
`decompose` settle the block on it. -/
theorem decomposeIsTheThreeInSequence : Obligations.DecomposeIsTheThreeInSequence := by
  unfold Obligations.DecomposeIsTheThreeInSequence
  intro x s
  exact ⟨settledOn x, settledOn x, settledOn x, exec_extract_eq x s, exec_decode_settledOn x _,
    exec_recompose_settledOn x _, exec_decompose_eq x s, rfl⟩

end Sys2Proof.Machine
end

section
/-!
PROOFS. Exceptions (spec/60_exceptions.md): an operation completes or is refused, a step completes, and neither answers a fault.
-/

namespace Sys2Proof.Machine

/-- A well-formed operation answers a next state and any other is refused, so none answers a fault. -/
theorem exec_ne_fault (i : Instr) (s : State) (r : Fault) : exec i s ≠ .fault r := by
  intro h
  cases hw : i.wellFormed with
  | true => rw [exec_eq hw] at h; cases h
  | false => rw [exec_refuses hw] at h; cases h

/-- A step answers the block settled on the present `x`, which is no fault. -/
theorem step_ne_fault (s : State) (r : Fault) : step s ≠ .fault r := by
  intro h
  rw [step_eq] at h
  cases h

/-- Settles O44: every well-formed operation settles the block on its word, and no outcome of an operation or a step is a fault.
The fault clauses follow from what the outcomes are, not from the emptiness of `Fault`. -/
theorem noOperationRaisesAnException : Obligations.NoOperationRaisesAnException := by
  unfold Obligations.NoOperationRaisesAnException
  exact ⟨fun i s h => ⟨settledOn (s.inputWord i), exec_eq h s⟩, exec_ne_fault, step_ne_fault⟩

end Sys2Proof.Machine
end

section
/-!
PROOFS. The decoder and the encoder (spec/30_encoding.md): on words of an operation's width they are inverse to each other.
-/

namespace Sys2Proof.Machine

/-! ### The decoder, case by case -/

theorem decodeWord_of_ne_width {op : Op} {nbits : Nat} (h : nbits ≠ op.width) (w : Nat) :
    decodeWord op nbits w = .error (.wrongWidth op nbits) :=
  if_pos h

theorem decodeWord_of_le {op : Op} {w : Nat} (h : 2 ^ op.width ≤ w) :
    decodeWord op op.width w = .error (.valueTooWide op w) := by
  rw [decodeWord, if_neg (not_not_intro rfl), if_pos h]

theorem decodeWord_of_lt {op : Op} {w : Nat} (h : w < 2 ^ op.width) :
    decodeWord op op.width w = .ok (operandsOfWord op w) := by
  rw [decodeWord, if_neg (not_not_intro rfl), if_neg h.not_ge]

/-- Everything the decoder can accept: a word of the operation's width, whose fields are the operands. -/
theorem decodeWord_eq_ok_iff {op : Op} {nbits w : Nat} {i : Instr} :
    decodeWord op nbits w = .ok i ↔ nbits = op.width ∧ w < 2 ^ op.width ∧ i = operandsOfWord op w := by
  constructor
  · intro h
    by_cases hwidth : nbits = op.width
    · subst hwidth
      rcases Nat.lt_or_ge w (2 ^ op.width) with hw | hw
      · rw [decodeWord_of_lt hw, Except.ok.injEq] at h
        exact ⟨rfl, hw, h.symm⟩
      · rw [decodeWord_of_le hw] at h
        cases h
    · rw [decodeWord_of_ne_width hwidth] at h
      cases h
  · rintro ⟨rfl, hw, rfl⟩
    exact decodeWord_of_lt hw

theorem op_operandsOfWord (op : Op) (w : Nat) : (operandsOfWord op w).op = op := by
  cases op <;> rfl

/-! ### Fields of numbers -/

theorem ofNat_toNat_self {n : Nat} (x : BitVec n) : BitVec.ofNat n x.toNat = x := by
  rw [BitVec.ofNat_toNat, BitVec.setWidth_eq]

/-- A number below `2^32` is the join of the fields at the positions of format RAW (spec/30_encoding.md R61). -/
theorem toNat_joinFields_ofNat {w : Nat} (h : w < 2 ^ 32) :
    (joinFields (BitVec.ofNat 1 (w >>> 31)) (BitVec.ofNat 8 (w >>> 23)) (BitVec.ofNat 23 w)).toNat = w := by
  simp only [toNat_joinFields, BitVec.toNat_ofNat, Nat.shiftRight_eq_div_pow]
  omega

/-- A number below `2^96` is the join of the three words of format DEC (spec/30_encoding.md R67). -/
theorem toNat_joinDecoded_ofNat {w : Nat} (h : w < 2 ^ 96) :
    (joinDecoded (BitVec.ofNat 32 (w >>> 64)) (BitVec.ofNat 32 (w >>> 32)) (BitVec.ofNat 32 w)).toNat = w := by
  simp only [toNat_joinDecoded, BitVec.toNat_ofNat, Nat.shiftRight_eq_div_pow]
  omega

theorem joinDecoded_inj {a b c a' b' c' : F32} :
    joinDecoded a b c = joinDecoded a' b' c' ↔ a = a' ∧ b = b' ∧ c = c' := by
  simp only [← BitVec.toNat_inj, toNat_joinDecoded]
  omega

/-! ### Encoding undoes decoding, and decoding undoes encoding -/

theorem encodeWord_operandsOfWord {op : Op} {w : Nat} (h : w < 2 ^ op.width) : encodeWord (operandsOfWord op w) = w := by
  cases op with
  | decode => exact toNat_joinFields_ofNat h
  | recompose => exact toNat_joinDecoded_ofNat h
  | extract | decodeSign | decodeExponent | decodeMantissa | decompose => exact Nat.mod_eq_of_lt h

/-- The operand word of an instruction fits its operation's width (spec/30_encoding.md R70). -/
theorem encodeWord_lt : ∀ i : Instr, encodeWord i < 2 ^ i.op.width
  | .extract x => Laws.OperandWordFits.extract x
  | .decodeSign sign => Laws.OperandWordFits.decodeSign sign
  | .decodeExponent exponent => Laws.OperandWordFits.decodeExponent exponent
  | .decodeMantissa mantissa => Laws.OperandWordFits.decodeMantissa mantissa
  | .decode sign exponent mantissa => Laws.OperandWordFits.decode sign exponent mantissa
  | .recompose sv ev mv => Laws.OperandWordFits.recompose sv ev mv
  | .decompose x => Laws.OperandWordFits.decompose x

theorem operandsOfWord_encodeWord (i : Instr) : operandsOfWord i.op (encodeWord i) = i := by
  cases i with
  | decode sign exponent mantissa =>
    have hjoin := toNat_joinFields_ofNat (joinFields sign exponent mantissa).isLt
    obtain ⟨hs, he, hm⟩ := joinFields_inj.mp (BitVec.eq_of_toNat_eq hjoin)
    exact Instr.decode.injEq .. |>.mpr ⟨hs, he, hm⟩
  | recompose sv ev mv =>
    have hjoin := toNat_joinDecoded_ofNat (joinDecoded sv ev mv).isLt
    obtain ⟨hs, he, hm⟩ := joinDecoded_inj.mp (BitVec.eq_of_toNat_eq hjoin)
    exact Instr.recompose.injEq .. |>.mpr ⟨hs, he, hm⟩
  | extract x => exact congrArg Instr.extract (ofNat_toNat_self x)
  | decodeSign sign => exact congrArg Instr.decodeSign (ofNat_toNat_self sign)
  | decodeExponent exponent => exact congrArg Instr.decodeExponent (ofNat_toNat_self exponent)
  | decodeMantissa mantissa => exact congrArg Instr.decodeMantissa (ofNat_toNat_self mantissa)
  | decompose x => exact congrArg Instr.decompose (ofNat_toNat_self x)

/-! ### The statements -/

/-- Settles O5: the operand word fits its width, and there the operands read back are the instruction's own. -/
theorem decodeOfEncodeIsTheInstruction : Obligations.DecodeOfEncodeIsTheInstruction := by
  unfold Obligations.DecodeOfEncodeIsTheInstruction
  intro i
  rw [decodeWord_of_lt (encodeWord_lt i), operandsOfWord_encodeWord]

/-- Settles O6: what the decoder accepts is the operands of the word, and these encode to it. -/
theorem encodeOfDecodeIsTheWord : Obligations.EncodeOfDecodeIsTheWord := by
  unfold Obligations.EncodeOfDecodeIsTheWord
  intro op nbits w i h
  obtain ⟨hwidth, hw, rfl⟩ := decodeWord_eq_ok_iff.mp h
  exact ⟨op_operandsOfWord op w, hwidth, encodeWord_operandsOfWord hw⟩

/-- Settles O7: the three cases of the decoder. -/
theorem onlyMisfitWordsAreRejected : Obligations.OnlyMisfitWordsAreRejected := by
  unfold Obligations.OnlyMisfitWordsAreRejected
  exact ⟨fun _ _ w h => decodeWord_of_ne_width h w, fun _ _ h => decodeWord_of_le h,
    fun op w h => ⟨operandsOfWord op w, decodeWord_of_lt h, op_operandsOfWord op w⟩⟩

/-- Settles O8: seven words evaluated by the decoder. -/
theorem formatsHaveTheTablesFields : Obligations.FormatsHaveTheTablesFields := by
  unfold Obligations.FormatsHaveTheTablesFields
  decide

end Sys2Proof.Machine
end

section
/-!
PROOFS. Invariants (spec/10_state.md, spec/70_reset_and_hazards.md): what every evaluation of the block leaves, settled and in the
spec's ranges.
-/

namespace Sys2Proof.Machine

/-! ### The signals of the settled block -/

section
variable (x : BitVec 32)

@[simp] theorem settledOn_x : (settledOn x).x = x := rfl
@[simp] theorem settledOn_sign : (settledOn x).sign = signOf x := rfl
@[simp] theorem settledOn_exponent : (settledOn x).exponent = exponentOf x := rfl
@[simp] theorem settledOn_mantissa : (settledOn x).mantissa = mantissaOf x := rfl
@[simp] theorem settledOn_k : (settledOn x).k = signedExponent (exponentOf x) := rfl
theorem settledOn_acc :
    (settledOn x).acc = Vector.ofFn fun i : Fin 24 => accumulatorWire (mantissaOf x) i := rfl
@[simp] theorem settledOn_signValue : (settledOn x).signValue = signDecoder (signOf x) := rfl
@[simp] theorem settledOn_exponentValue : (settledOn x).exponentValue = exponentDecoder (exponentOf x) := rfl
@[simp] theorem settledOn_mantissaValue : (settledOn x).mantissaValue = joinFields 0#1 127#8 (mantissaOf x) := rfl
@[simp] theorem settledOn_p : (settledOn x).p = firstProductOf (extractFields x) := rfl
@[simp] theorem settledOn_recomposed : (settledOn x).recomposed = recomposedOf (extractFields x) := rfl

end

/-! ### Settled -/

theorem settled_settledOn (x : BitVec 32) : Settled (settledOn x) :=
  (settled_iff _).mpr rfl

theorem settled_reset : Settled State.reset :=
  (settled_iff _).mpr (by decide)

theorem ofBool_beq_one (s : BitVec 1) : BitVec.ofBool (s == 1#1) = s := by
  revert s
  decide

/-! ### The rounded half of a subnormal significand -/

/-- The one product that can round lies in `2^-127 .. 2^-126` (spec/43_recomposer.md R193). -/
theorem halfEven_significand_bounds (m : BitVec 23) :
    2 ^ 22 ≤ halfEven (2 ^ 23 + m.toNat) 1 ∧ halfEven (2 ^ 23 + m.toNat) 1 ≤ 2 ^ 23 := by
  have hm := m.isLt
  obtain ⟨hlow, hhigh, heven⟩ := halfEven_spec (2 ^ 23 + m.toNat) 1
  omega

/-- Everything the recomposed pattern can be for exponent field 0: a subnormal of magnitude 2^-127 or more, or 2^-126. -/
theorem recomposedOf_exponent_zero (m : BitVec 23) :
    (∃ n : BitVec 23, 2 ^ 22 ≤ n.toNat ∧ n.toNat = halfEven (2 ^ 23 + m.toNat) 1 ∧
      ∀ s, recomposedOf ⟨s, 0#8, m⟩ = joinFields s 0#8 n) ∨
    (halfEven (2 ^ 23 + m.toNat) 1 = 2 ^ 23 ∧ ∀ s, recomposedOf ⟨s, 0#8, m⟩ = joinFields s 1#8 0#23) := by
  obtain ⟨hlow, hhigh⟩ := halfEven_significand_bounds m
  have hpack (s : BitVec 1) : recomposedOf ⟨s, 0#8, m⟩ = pack (s == 1#1) (halfEven (2 ^ 23 + m.toNat) 1) := if_pos rfl
  generalize halfEven (2 ^ 23 + m.toNat) 1 = h at *
  rcases hhigh.lt_or_eq with hlt | rfl
  · have hn : (BitVec.ofNat 23 h).toNat = h := by rw [BitVec.toNat_ofNat, Nat.mod_eq_of_lt hlt]
    refine .inl ⟨_, hn.symm ▸ hlow, hn, fun s => (hpack s).trans ?_⟩
    have hfields := pack_fields (s == 1#1) 0#8 (BitVec.ofNat 23 h)
    rwa [hn, ofBool_beq_one, BitVec.toNat_zero, zero_mul, zero_add] at hfields
  · refine .inr ⟨rfl, fun s => (hpack s).trans ?_⟩
    have hfields := pack_fields (s == 1#1) 1#8 0#23
    rwa [ofBool_beq_one] at hfields

/-! ### The class of a pattern -/

/-- `patternClass` by fields (spec/30_encoding.md R69). -/
theorem patternClass_joinFields (s : BitVec 1) (e : BitVec 8) (m : BitVec 23) :
    patternClass (joinFields s e m) =
      if e = 0#8 then if m = 0#23 then .zero else .subnormal
      else if e = 255#8 then if m = 0#23 then .infinity else .nan
      else .normalized := by
  simp [patternClass]

/-- What RM drives is never a NaN and never a zero, whatever the fields (spec/43_recomposer.md R193). -/
theorem patternClass_recomposedOf (r : RawFields) :
    patternClass (recomposedOf r) ≠ .nan ∧ patternClass (recomposedOf r) ≠ .zero := by
  obtain ⟨s, e, m⟩ := r
  by_cases h0 : e = 0#8
  · subst h0
    rcases recomposedOf_exponent_zero m with ⟨n, hn, -, hr⟩ | ⟨-, hr⟩
    · have hne : n ≠ 0#23 := by
        rintro rfl
        simp at hn
      simp [hr, patternClass_joinFields, hne]
    · simp [hr, patternClass_joinFields]
  · by_cases h255 : e = 255#8
    · simp [recomposedOf, h255, patternClass_joinFields]
    · simp [recomposedOf, h0, h255, patternClass_joinFields]

/-! ### The ranges -/

/-- The first product without its sign is an exponent value (spec/43_recomposer.md R190). -/
theorem firstProductOf_unsigned (r : RawFields) :
    joinFields 0#1 (exponentOf (firstProductOf r)) (mantissaOf (firstProductOf r)) = exponentDecoder r.exponent := by
  rw [firstProductOf, exponentDecoder_eq]
  split <;> simp

theorem inExponentValueDomain_exponentDecoder (e : BitVec 8) : inExponentValueDomain (exponentDecoder e) = true := by
  rw [exponentDecoder_eq]
  split
  · exact (inExponentValueDomain_joinFields _ _ _).mpr ⟨rfl, .inl ⟨rfl, rfl⟩⟩
  · exact (inExponentValueDomain_joinFields _ _ _).mpr ⟨rfl, .inr ⟨‹_›, rfl⟩⟩

theorem settledOn_acc_inDomain (x : BitVec 32) : (settledOn x).acc.toList.all inMantissaValueDomain = true := by
  simp only [settledOn_acc, Vector.toList_ofFn, List.all_eq_true, List.mem_ofFn]
  rintro _ ⟨i, rfl⟩
  exact accumulatorWire_inDomain _ _

/-- Every signal that an evaluation drives lies in the spec's range, whatever the input word. -/
theorem signalsInRange_settledOn (x : BitVec 32) : SignalsInRange (settledOn x) := by
  have hp := inExponentValueDomain_exponentDecoder (extractFields x).exponent
  rw [← firstProductOf_unsigned (extractFields x)] at hp
  exact ⟨inRecomposeDomain_settledOn x, signedExponent_bounds _, settledOn_acc_inDomain x, hp,
    patternClass_recomposedOf _⟩

/-! ### The statements -/

/-- Settles O54: a step and an operation each answer the block settled on one word, the step on the present `x`. -/
theorem everyEvaluationSettlesTheBlock : Obligations.EveryEvaluationSettlesTheBlock := by
  unfold Obligations.EveryEvaluationSettlesTheBlock
  constructor
  · intro s t h
    obtain rfl := Host.Outcome.next.inj ((step_eq s).symm.trans h)
    exact ⟨settled_settledOn s.x, rfl⟩
  · intro i s t h
    obtain ⟨-, rfl⟩ := exec_next h
    exact settled_settledOn _

/-- Settles O57: the state before plays no part, for the block settled on any word is in range. -/
theorem stepKeepsSignalsInRange : Obligations.StepKeepsSignalsInRange := by
  unfold Obligations.StepKeepsSignalsInRange
  constructor
  · intro s t h
    obtain rfl := Host.Outcome.next.inj ((step_eq s).symm.trans h)
    exact signalsInRange_settledOn s.x
  · intro i s t h
    obtain ⟨-, rfl⟩ := exec_next h
    exact signalsInRange_settledOn _

/-- Settles O58: every step completes, and the block settled on the present `x` has the three properties. -/
theorem stepCompletesInRange : Obligations.StepCompletesInRange := by
  unfold Obligations.StepCompletesInRange
  intro s
  exact ⟨settledOn s.x, step_eq s, settled_settledOn s.x, signalsInRange_settledOn s.x, rfl⟩

/-- Settles O56: the reset state is settled, and so in range. -/
theorem resetSignalsAreInRange : Obligations.ResetSignalsAreInRange := by
  unfold Obligations.ResetSignalsAreInRange
  rw [(settled_iff _).mp settled_reset]
  exact signalsInRange_settledOn _

/-- Settles O9: `decompose` and the step are the evaluation of the present `x`, which leaves a settled state as it is. -/
theorem resetIsTheEvaluationOfItsInput : Obligations.ResetIsTheEvaluationOfItsInput := by
  unfold Obligations.ResetIsTheEvaluationOfItsInput
  exact ⟨settled_reset, settled_reset, settled_reset⟩

/-- Settles O32: what an operation leaves on `recomposed` is what RM drives for some fields. -/
theorem recomposedIsNeverNaNOrZero : Obligations.RecomposedIsNeverNaNOrZero := by
  unfold Obligations.RecomposedIsNeverNaNOrZero
  intro i s t h
  obtain ⟨-, rfl⟩ := exec_next h
  exact patternClass_recomposedOf _

end Sys2Proof.Machine
end

section
/-!
PROOFS. The machine around the operations (spec/10_state.md, spec/20_memory.md): the word that carries an operation's operands,
presenting it, and what an operation leaves unchanged and does not depend on.
-/

namespace Sys2Proof.Machine

/-! ### One field of the word replaced: the others stay (log entry 5) -/

@[simp] theorem exponentOf_withSign (x : BitVec 32) (sign : BitVec 1) : exponentOf (withSign x sign) = exponentOf x :=
  exponentOf_joinFields _ _ _

@[simp] theorem mantissaOf_withSign (x : BitVec 32) (sign : BitVec 1) : mantissaOf (withSign x sign) = mantissaOf x :=
  mantissaOf_joinFields _ _ _

@[simp] theorem signOf_withExponent (x : BitVec 32) (exponent : BitVec 8) : signOf (withExponent x exponent) = signOf x :=
  signOf_joinFields _ _ _

@[simp] theorem mantissaOf_withExponent (x : BitVec 32) (exponent : BitVec 8) :
    mantissaOf (withExponent x exponent) = mantissaOf x :=
  mantissaOf_joinFields _ _ _

@[simp] theorem signOf_withMantissa (x : BitVec 32) (mantissa : BitVec 23) : signOf (withMantissa x mantissa) = signOf x :=
  signOf_joinFields _ _ _

@[simp] theorem exponentOf_withMantissa (x : BitVec 32) (mantissa : BitVec 23) :
    exponentOf (withMantissa x mantissa) = exponentOf x :=
  exponentOf_joinFields _ _ _

theorem withSign_magnitude (x : BitVec 32) (sign : BitVec 1) :
    (withSign x sign).extractLsb' 0 31 = x.extractLsb' 0 31 := by
  apply BitVec.eq_of_toNat_eq
  simp only [BitVec.extractLsb'_toNat, Nat.shiftRight_zero, withSign, toNat_joinFields, toNat_exponentOf,
    toNat_mantissaOf]
  omega

theorem withMantissa_signExponent (x : BitVec 32) (mantissa : BitVec 23) :
    (withMantissa x mantissa).extractLsb' 23 9 = x.extractLsb' 23 9 := by
  have hm := mantissa.isLt
  apply BitVec.eq_of_toNat_eq
  simp only [BitVec.extractLsb'_toNat, Nat.shiftRight_eq_div_pow, withMantissa, toNat_joinFields, toNat_exponentOf,
    toNat_signOf]
  omega

/-- The first product does not read the mantissa (spec/43_recomposer.md R190). -/
theorem firstProductOf_withMantissa (x : BitVec 32) (mantissa : BitVec 23) :
    firstProductOf (extractFields (withMantissa x mantissa)) = firstProductOf (extractFields x) := by
  rw [withMantissa, extractFields_joinFields]
  rfl

/-! ### The word that carries an operation's operands -/

/-- On a word that already carries the operands, the word that carries them is that word. -/
theorem inputWord_of_x_eq {s t : State} {i : Instr} (h : t.x = s.inputWord i) : t.inputWord i = s.inputWord i := by
  cases i with
  | decodeSign sign =>
    change withSign t.x sign = withSign s.x sign
    rw [h, State.inputWord, withSign, exponentOf_withSign, mantissaOf_withSign]
    rfl
  | decodeExponent exponent =>
    change withExponent t.x exponent = withExponent s.x exponent
    rw [h, State.inputWord, withExponent, signOf_withExponent, mantissaOf_withExponent]
    rfl
  | decodeMantissa mantissa =>
    change withMantissa t.x mantissa = withMantissa s.x mantissa
    rw [h, State.inputWord, withMantissa, signOf_withMantissa, exponentOf_withMantissa]
    rfl
  | extract | decode | recompose | decompose => rfl

/-- The word of an operation that fixes the whole word does not depend on the state. -/
theorem inputWord_of_wholeWord {i : Instr} (h : i.op ∉ [Op.decodeSign, Op.decodeExponent, Op.decodeMantissa])
    (s s' : State) : s.inputWord i = s'.inputWord i := by
  cases i with
  | decodeSign | decodeExponent | decodeMantissa => exact absurd h (by simp [Instr.op])
  | extract | decode | recompose | decompose => rfl

/-- A well-formed operation settles the block on the word that already carries its operands. -/
theorem exec_of_inputWord_eq {i : Instr} {s : State} {x : BitVec 32} (hw : i.wellFormed = true)
    (hx : s.inputWord i = x) : exec i s = .next (settledOn x) :=
  hx ▸ exec_eq hw s

/-! ### The operations whose operands stand on the inputs -/

/-- The instruction of an operation on the signals that stand on its inputs (spec/10_state.md R21, column "read by"). -/
def State.instrOnInputs (s : State) : Op → Instr
  | .extract => .extract s.x
  | .decodeSign => .decodeSign s.sign
  | .decodeExponent => .decodeExponent s.exponent
  | .decodeMantissa => .decodeMantissa s.mantissa
  | .decode => .decode s.sign s.exponent s.mantissa
  | .recompose => .recompose s.signValue s.exponentValue s.mantissaValue
  | .decompose => .decompose s.x

theorem decodeWord_operandWord (s : State) (op : Op) :
    decodeWord op op.width (s.operandWord op) = .ok (s.instrOnInputs op) := by
  have h := decodeOfEncodeIsTheInstruction (s.instrOnInputs op)
  cases op <;> exact h

theorem wellFormed_instrOnInputs (x : BitVec 32) (op : Op) : ((settledOn x).instrOnInputs op).wellFormed = true := by
  cases op with
  | recompose => exact inRecomposeDomain_settledOn x
  | extract | decodeSign | decodeExponent | decodeMantissa | decode | decompose => rfl

/-- Each field of `x`, put back where it stands, gives `x`. -/
theorem inputWord_instrOnInputs {s : State} {x : BitVec 32} (h : s.x = x) (op : Op) :
    s.inputWord ((settledOn x).instrOnInputs op) = x := by
  subst h
  cases op with
  | recompose => exact wordOfDecoded_settledOn s.x
  | decodeSign | decodeExponent | decodeMantissa | decode => exact joinFields_fieldsOf s.x
  | extract | decompose => rfl

/-- An operation of the width of `x` whose operand word is `x` asks nothing of its operands and is carried by `x`. -/
theorem inputWord_of_encodeWord {s : State} {i : Instr} (hwidth : i.op.width = 32) (h : encodeWord i = s.x.toNat) :
    i.wellFormed = true ∧ s.inputWord i = s.x := by
  cases i with
  | extract | decode | decompose => exact ⟨rfl, BitVec.eq_of_toNat_eq h⟩
  | decodeSign | decodeExponent | decodeMantissa | recompose => cases hwidth

/-! ### Presenting -/

/-- Presenting well-formed operands and stepping is the operation, before and after presenting. -/
theorem step_present (s : State) {i : Instr} (hw : i.wellFormed = true) :
    step (s.present i) = exec i (s.present i) ∧ step (s.present i) = exec i s := by
  have hword := inputWord_of_x_eq (s := s) (t := s.driveInput (s.inputWord i)) rfl
  rw [State.present_of_wellFormed s hw, step_eq, exec_of_inputWord_eq hw hword, exec_eq hw]
  exact ⟨rfl, rfl⟩

theorem withFetchWord_eq_present {nbits w : Nat} {i : Instr} (h : decodeTableWord nbits w = some i) (s : State) :
    s.withFetchWord nbits w = s.present i := by
  rw [State.withFetchWord, h]

/-- The byte at the address of lane `lane` is that lane's byte of the pattern, in every byte order. -/
theorem bytesOfInputWord_lane (order : ByteOrder) (x : BitVec 32) (lane : Fin 4) :
    (bytesOfInputWord order x)[order lane] = x.extractLsb' (8 * lane.val) 8 := by
  simp [bytesOfInputWord]

theorem inputWordOfBytes_bytesOfInputWord (order : ByteOrder) (x : BitVec 32) :
    inputWordOfBytes order (bytesOfInputWord order x) = x := by
  apply BitVec.eq_of_toNat_eq
  simp only [inputWordOfBytes, bytesOfInputWord_lane, toNat_append_eq, BitVec.extractLsb'_toNat,
    Nat.shiftRight_eq_div_pow]
  change ((x.toNat / 2 ^ 24 % 2 ^ 8 * 2 ^ 8 + x.toNat / 2 ^ 16 % 2 ^ 8) * 2 ^ 8 + x.toNat / 2 ^ 8 % 2 ^ 8) * 2 ^ 8 +
    x.toNat / 2 ^ 0 % 2 ^ 8 = x.toNat
  have hx := x.isLt
  omega

/-! ### The statements -/

/-- Settles O1: the operand word that decodes is the word on `x`, so the step evaluates it. -/
theorem stepRunsTheDecodedOperation : Obligations.StepRunsTheDecodedOperation := by
  unfold Obligations.StepRunsTheDecodedOperation
  intro s op i hwidth h
  obtain ⟨rfl, -, hencode⟩ := encodeOfDecodeIsTheWord op 32 s.x.toNat i h
  obtain ⟨hw, hx⟩ := inputWord_of_encodeWord hwidth hencode
  rw [step_eq, exec_of_inputWord_eq hw hx]

/-- Settles O3: the signals that stand on an operation's inputs after a step are carried by the present `x`. -/
theorem everyOperationIsEvaluatedInEveryStep : Obligations.EveryOperationIsEvaluatedInEveryStep := by
  unfold Obligations.EveryOperationIsEvaluatedInEveryStep
  intro s t h op
  obtain rfl := Host.Outcome.next.inj ((step_eq s).symm.trans h)
  have hw := wellFormed_instrOnInputs s.x op
  exact ⟨(settledOn s.x).instrOnInputs op, decodeWord_operandWord _ op,
    exec_of_inputWord_eq hw (inputWord_instrOnInputs rfl op), exec_of_inputWord_eq hw (inputWord_instrOnInputs rfl op)⟩

/-- Settles O4: presenting drives the word of the operands, and a table word that decodes presents its instruction. -/
theorem presentedOperationIsRun : Obligations.PresentedOperationIsRun := by
  unfold Obligations.PresentedOperationIsRun
  refine ⟨fun s i hw => step_present s hw, fun s nbits w i h hw => ?_, State.present_frame⟩
  rw [withFetchWord_eq_present h]
  exact step_present s hw

/-- Settles O10: the lanes of the word come back from their addresses, whatever the order. -/
theorem inputWordIsTheHostsFloat : Obligations.InputWordIsTheHostsFloat := by
  unfold Obligations.InputWordIsTheHostsFloat
  refine ⟨inputWordOfBytes_bytesOfInputWord, fun s x => ?_⟩
  rw [State.presentBytes, inputWordOfBytes_bytesOfInputWord]
  exact State.present_of_wellFormed s rfl

/-- Settles O39: unit by unit, by what its drive leaves as it was. -/
theorem unitsDriveOnlyTheirOwnSignals : Obligations.UnitsDriveOnlyTheirOwnSignals := by
  unfold Obligations.UnitsDriveOnlyTheirOwnSignals
  intro unit s t h
  cases unit with
  | fx | sd | ed =>
    obtain rfl := Option.some.inj h
    simp
  | ma =>
    obtain rfl := Option.some.inj ((evaluateUnit_ma s).symm.trans h)
    simp
  | rm =>
    obtain ⟨products, -, rfl⟩ := Option.map_eq_some_iff.mp h
    simp

/-- Settles O40: both states are settled, on words that differ in one field. -/
theorem operationsChangeOnlyWhatTheirOperandReaches : Obligations.OperationsChangeOnlyWhatTheirOperandReaches := by
  unfold Obligations.OperationsChangeOnlyWhatTheirOperandReaches
  intro s t hs
  rw [(settled_iff s).mp hs]
  generalize s.x = x
  refine ⟨fun sign h => ?_, fun exponent h => ?_, fun mantissa h => ?_⟩
  · obtain ⟨-, rfl⟩ := exec_next h
    simp [State.inputWord, settledOn_acc, withSign_magnitude]
  · obtain ⟨-, rfl⟩ := exec_next h
    simp [State.inputWord, settledOn_acc, ← signOf_eq_extractLsb', ← mantissaOf_eq_extractLsb']
  · obtain ⟨-, rfl⟩ := exec_next h
    simp [State.inputWord, withMantissa_signExponent, firstProductOf_withMantissa]

/-- The host's reading of an operation on the word that carries its operands does not depend on the rest of the word. -/
theorem read_settledOn_inputWord (i : Instr) (s s' : State) :
    (settledOn (s.inputWord i)).read i.op = (settledOn (s'.inputWord i)).read i.op := by
  cases i with
  | decodeSign | decodeExponent | decodeMantissa => simp [State.read, Instr.op, State.inputWord]
  | extract | decode | recompose | decompose => rfl

/-- Settles O41: the operands decide whether the operation completes and fix what the host reads. -/
theorem operationsReadOnlyTheirOperands : Obligations.OperationsReadOnlyTheirOperands := by
  unfold Obligations.OperationsReadOnlyTheirOperands
  intro i s s' t h
  obtain ⟨hw, rfl⟩ := exec_next h
  exact ⟨settledOn (s'.inputWord i), exec_eq hw s', read_settledOn_inputWord i s s',
    fun hop => congrArg settledOn (inputWord_of_wholeWord hop s s')⟩

/-- Settles O42: `decompose` settles the block on its operand from any two states. -/
theorem evaluationsAreIndependent : Obligations.EvaluationsAreIndependent := by
  unfold Obligations.EvaluationsAreIndependent
  intro before s u _ x
  exact ⟨settledOn x, exec_decompose_eq x s, exec_decompose_eq x u⟩

/-- Settles O43: the state after the operation stands on the word that carries its operands. -/
theorem evaluationIsIdempotent : Obligations.EvaluationIsIdempotent := by
  unfold Obligations.EvaluationIsIdempotent
  intro i s t h
  obtain ⟨hw, rfl⟩ := exec_next h
  exact exec_of_inputWord_eq hw (inputWord_of_x_eq rfl)

end Sys2Proof.Machine
end

section
/-!
PROOFS. The closed forms (spec/44_pipeline.md R211): every signal of the settled block, and so of the state after each operation.
-/

namespace Sys2Proof.Machine

/-! ### Each signal in its closed form -/

theorem signDecoder_eq_closedForm (S : BitVec 1) : signDecoder S = ClosedForm.signValue S := by
  revert S
  decide

theorem exponentDecoder_eq_closedForm (E : BitVec 8) : exponentDecoder E = ClosedForm.exponentValue E := by
  rw [exponentDecoder_eq, ClosedForm.exponentValue]
  split
  · decide
  · rfl

theorem significandPattern_eq_closedForm (M : BitVec 23) : joinFields 0#1 127#8 M = ClosedForm.mantissaValue M := by
  apply BitVec.eq_of_toNat_eq
  rw [toNat_joinFields, ClosedForm.mantissaValue, toNat_append_eq]
  rfl

/-- The mantissa lies below the bits of 1.0, so joining it and OR-ing it in are the same (spec/42_field_decoder.md R157). -/
theorem significandPattern_eq_or (M : BitVec 23) : joinFields 0#1 127#8 M = 0x3F800000#32 ||| M.setWidth 32 := by
  have hor := Nat.shiftLeft_add_eq_or_of_lt M.isLt 127
  apply BitVec.eq_of_toNat_eq
  rw [toNat_joinFields, BitVec.toNat_or, BitVec.toNat_setWidth_of_le (by decide)]
  simpa using hor

theorem accumulatorWire_eq_or (M : BitVec 23) (i : Nat) :
    accumulatorWire M i = 0x3F800000#32 ||| BitVec.ofNat 32 (M.toNat % 2 ^ i) := by
  have hlt : M.toNat % 2 ^ i < 2 ^ 23 := (Nat.mod_le _ _).trans_lt M.isLt
  have hwide : (BitVec.ofNat 23 (M.toNat % 2 ^ i)).setWidth 32 = BitVec.ofNat 32 (M.toNat % 2 ^ i) := by
    apply BitVec.eq_of_toNat_eq
    simp only [BitVec.toNat_setWidth, BitVec.toNat_ofNat]
    omega
  rw [accumulatorWire, significandPattern_eq_or, hwide]

/-- Replacing the sign of a pattern, as a join and as an append. -/
theorem joinFields_eq_append_magnitude (S T : BitVec 1) (E : BitVec 8) (M : BitVec 23) :
    joinFields S E M = S ++ (joinFields T E M).extractLsb' 0 31 := by
  apply BitVec.eq_of_toNat_eq
  simp only [toNat_append_eq, BitVec.extractLsb'_toNat, Nat.shiftRight_zero, toNat_joinFields]
  omega

theorem firstProductOf_eq_closedForm (S : BitVec 1) (E : BitVec 8) (M : BitVec 23) :
    firstProductOf ⟨S, E, M⟩ = ClosedForm.firstProduct S E := by
  rw [ClosedForm.firstProduct, ← exponentDecoder_eq_closedForm, exponentDecoder_eq, firstProductOf]
  split
  · exact joinFields_eq_append_magnitude S 0#1 0#8 _
  · exact joinFields_eq_append_magnitude S 0#1 E _

theorem and_eq_mul_of_bits (a b : Nat) : (a % 2) &&& (b % 2) = a % 2 * (b % 2) := by
  rcases Nat.mod_two_eq_zero_or_one a with ha | ha <;> rcases Nat.mod_two_eq_zero_or_one b with hb | hb <;> simp [ha, hb]

/-- The nearest-even half by the last two bits of `N = {1, M}` (spec/43_recomposer.md R193). -/
theorem halfEven_significand_eq_bits (M : BitVec 23) :
    BitVec.ofNat 31 (halfEven (2 ^ 23 + M.toNat) 1) =
      ((1#1 ++ M) >>> 1).setWidth 31 + ((1#1 ++ M).extractLsb' 0 1 &&& (1#1 ++ M).extractLsb' 1 1).setWidth 31 := by
  have hN : (1#1 ++ M).toNat = 2 ^ 23 + M.toNat := by
    rw [toNat_append_eq]
    rfl
  apply BitVec.eq_of_toNat_eq
  simp only [BitVec.toNat_ofNat, BitVec.toNat_add, BitVec.toNat_setWidth, BitVec.toNat_ushiftRight, BitVec.toNat_and,
    BitVec.extractLsb'_toNat, hN, Nat.shiftRight_eq_div_pow, pow_zero, Nat.div_one, pow_one, and_eq_mul_of_bits,
    halfEven_one]
  rcases Nat.mod_two_eq_zero_or_one (2 ^ 23 + M.toNat) with h | h <;> simp only [h] <;> omega

theorem recomposedOf_eq_closedForm (S : BitVec 1) (E : BitVec 8) (M : BitVec 23) :
    recomposedOf ⟨S, E, M⟩ = ClosedForm.recomposed S E M := by
  rw [recomposedOf, ClosedForm.recomposed]
  split
  · rw [pack, ofBool_beq_one, halfEven_significand_eq_bits]
  · rfl

/-- Every signal of the settled block is its closed form (spec/44_pipeline.md R211). -/
theorem settledOn_joinFields (S : BitVec 1) (E : BitVec 8) (M : BitVec 23) :
    settledOn (joinFields S E M) = ClosedForm.block S E M := by
  simp only [settledOn, ClosedForm.block, signOf_joinFields, exponentOf_joinFields, mantissaOf_joinFields,
    extractFields_joinFields, signDecoder_eq_closedForm, exponentDecoder_eq_closedForm,
    significandPattern_eq_closedForm, accumulatorWire_eq_or, firstProductOf_eq_closedForm, recomposedOf_eq_closedForm,
    ClosedForm.accumulator]
  rfl

theorem settledOn_eq_block (x : BitVec 32) :
    settledOn x = ClosedForm.block (x.extractLsb' 31 1) (x.extractLsb' 23 8) (x.extractLsb' 0 23) := by
  rw [← signOf_eq_extractLsb', ← exponentOf_eq_extractLsb', ← mantissaOf_eq_extractLsb', ← settledOn_joinFields,
    joinFields_fieldsOf]

/-! ### The statements -/

/-- Settles O34: both operations settle the block on `x`. -/
theorem decomposeClosedForm : Obligations.DecomposeClosedForm := by
  unfold Obligations.DecomposeClosedForm
  intro x s
  rw [exec_extract_eq, exec_decompose_eq, settledOn_eq_block]
  exact ⟨rfl, rfl⟩

/-- Settles O26: `decode` settles the block on the join of its fields. -/
theorem decodeClosedForm : Obligations.DecodeClosedForm := by
  unfold Obligations.DecodeClosedForm
  intro sign exponent mantissa s
  rw [exec_decode_eq, settledOn_joinFields]

/-- Settles O19: each of the two settles the block on the present word with its field replaced. -/
theorem decodeSignAndExponentClosedForms : Obligations.DecodeSignAndExponentClosedForms := by
  unfold Obligations.DecodeSignAndExponentClosedForms
  constructor
  · intro sign s
    rw [exec_decodeSign_eq, withSign, settledOn_joinFields, exponentOf_eq_extractLsb', mantissaOf_eq_extractLsb']
  · intro exponent s
    rw [exec_decodeExponent_eq, withExponent, settledOn_joinFields, signOf_eq_extractLsb', mantissaOf_eq_extractLsb']

/-- Settles O22: `decode.mantissa` settles the block on the present word with its mantissa replaced. -/
theorem decodeMantissaClosedForm : Obligations.DecodeMantissaClosedForm := by
  unfold Obligations.DecodeMantissaClosedForm
  intro mantissa s
  rw [exec_decodeMantissa_eq, withMantissa, settledOn_joinFields, signOf_eq_extractLsb', exponentOf_eq_extractLsb',
    ← significandPattern_eq_closedForm]
  exact ⟨rfl, significandPattern_eq_or mantissa⟩

/-- Settles O30: the decoded values of the fields are those that stand after their word, and recomposing these evaluates it again. -/
theorem recomposeClosedForm : Obligations.RecomposeClosedForm := by
  unfold Obligations.RecomposeClosedForm
  intro S E M s
  have h := exec_recompose_settledOn (joinFields S E M) s
  rwa [settledOn_joinFields] at h

/-- Settles O55: a settled state is the block settled on its `x`. -/
theorem settledSignalsFollowTheInput : Obligations.SettledSignalsFollowTheInput := by
  unfold Obligations.SettledSignalsFollowTheInput
  intro s
  rw [settled_iff, ← settledOn_eq_block]

end Sys2Proof.Machine
end

section
/-!
PROOFS. Fields and values (spec/41_field_extractor.md section 2, spec/42_field_decoder.md section 5): the word of a field triple, the
sign bit, and the fields read back from what the decoder units drive.
-/

namespace Sys2Proof.Machine

/-! ### The sign bit -/

theorem signOf_eq_one_iff (x : BitVec 32) : signOf x = 1#1 ↔ x.getLsbD 31 = true := by
  have hbit (s : BitVec 1) : s = 1#1 ↔ s.getLsbD 0 = true := by
    revert s
    decide
  rw [hbit, signOf_eq_extractLsb', BitVec.getLsbD_extractLsb']
  simp

/-- A finite value carries the sign bit of its pattern (spec/40_numerics.md R93). -/
theorem neg_of_val32_finite {b : F32} {neg : Bool} {mant : Nat} {exp : Int} (h : val32 b = .finite neg mant exp) :
    neg = (signOf b == 1#1) := by
  simp only [val32] at h
  split_ifs at h <;> cases h <;> rfl

/-- An infinity carries the sign bit of its pattern (spec/40_numerics.md R93). -/
theorem neg_of_val32_inf {b : F32} {neg : Bool} (h : val32 b = .inf neg) : neg = (signOf b == 1#1) := by
  simp only [val32] at h
  split_ifs at h
  cases h
  rfl

theorem val32_eq_nan_iff (b : F32) : val32 b = .nan ↔ patternClass b = .nan := by
  obtain ⟨s, e, m, rfl⟩ := exists_joinFields b
  rw [val32_joinFields, patternClass_joinFields]
  split_ifs <;> simp_all

/-- The sign bit of a pattern that is not a NaN tells whether its value is negative, -0 or -infinity. -/
theorem signOf_eq_one_iff_val32 {x : BitVec 32} (h : patternClass x ≠ .nan) :
    signOf x = 1#1 ↔ val32 x = .inf true ∨ ∃ mant exp, val32 x = .finite true mant exp := by
  cases hv : val32 x with
  | nan => exact absurd ((val32_eq_nan_iff x).mp hv) h
  | inf neg => simp [neg_of_val32_inf hv]
  | finite neg mant exp => simp [neg_of_val32_finite hv]

/-! ### The fields of what the decoder units drive -/

@[simp] theorem signOf_signDecoder (s : BitVec 1) : signOf (signDecoder s) = s := by
  rw [signDecoder_eq, signOf_joinFields]

@[simp] theorem exponentOf_exponentDecoder (e : BitVec 8) : exponentOf (exponentDecoder e) = e := by
  rw [exponentDecoder_eq]
  split
  · rw [exponentOf_joinFields, ‹e = 0#8›]
  · rw [exponentOf_joinFields]

/-! ### The statements -/

/-- Settles O14: the word is the join of the fields, and a word is the join of its own. -/
theorem everyFieldTripleIsOfOneWord : Obligations.EveryFieldTripleIsOfOneWord := by
  unfold Obligations.EveryFieldTripleIsOfOneWord
  intro S E M s
  refine ⟨joinFields S E M, settledOn (joinFields S E M), exec_extract_eq _ s, signOf_joinFields _ _ _,
    exponentOf_joinFields _ _ _, mantissaOf_joinFields _ _ _, ?_⟩
  rintro x' t' h rfl rfl rfl
  obtain rfl := Host.Outcome.next.inj ((exec_extract_eq x' s).symm.trans h)
  exact (joinFields_settledOn x').symm

/-- Settles O15: FX drives `sign` with bit 31. -/
theorem signIsBitThirtyOne : Obligations.SignIsBitThirtyOne := by
  unfold Obligations.SignIsBitThirtyOne
  intro x s
  exact ⟨settledOn x, exec_extract_eq x s, signOf_eq_one_iff x⟩

/-- Settles O16: every value but a NaN carries the sign bit. -/
theorem signTellsNegativeValues : Obligations.SignTellsNegativeValues := by
  unfold Obligations.SignTellsNegativeValues
  intro x s h
  exact ⟨settledOn x, exec_extract_eq x s, signOf_eq_one_iff_val32 h⟩

/-- Settles O27: each decoder unit keeps its field in place. -/
theorem decodeDeterminesTheWord : Obligations.DecodeDeterminesTheWord := by
  unfold Obligations.DecodeDeterminesTheWord
  intro sign exponent mantissa s
  refine ⟨settledOn (joinFields sign exponent mantissa), exec_decode_eq sign exponent mantissa s, ?_⟩
  rw [← signOf_eq_extractLsb', ← exponentOf_eq_extractLsb', ← mantissaOf_eq_extractLsb']
  simp

end Sys2Proof.Machine
end

section
/-!
PROOFS. Arithmetic (spec/40_numerics.md): patterns and the rational numbers they denote, rounding of a rational magnitude, and the
primitives as exact operations on these numbers, rounded.
-/

namespace Sys2Proof.Machine

/-! ### Magnitudes as rational numbers -/

theorem magnitude_mul_pow (m t : Nat) (e : Int) : magnitude (m * 2 ^ t) e = magnitude m (e + t) := by
  rw [magnitude, magnitude, zpow_add₀ two_ne_zero, zpow_natCast]
  push_cast
  ring

theorem magnitude_nonneg (m : Nat) (e : Int) : 0 ≤ magnitude m e := by
  rw [magnitude]
  positivity

@[simp] theorem magnitude_eq_zero_iff (m : Nat) (e : Int) : magnitude m e = 0 ↔ m = 0 := by
  have h2 : (2 : ℚ) ^ e ≠ 0 := zpow_ne_zero e two_ne_zero
  simp [magnitude, h2]

theorem magnitude_mono {m m' : Nat} (h : m ≤ m') (e : Int) : magnitude m e ≤ magnitude m' e :=
  mul_le_mul_of_nonneg_right (Nat.cast_le.mpr h) (zpow_nonneg zero_le_two e)

theorem magnitude_left_inj {m m' : Nat} {e : Int} : magnitude m e = magnitude m' e ↔ m = m' := by
  rw [magnitude, magnitude, mul_left_inj' (zpow_ne_zero e two_ne_zero), Nat.cast_inj]

theorem magnitude_mul (m m' : Nat) (e e' : Int) : magnitude m e * magnitude m' e' = magnitude (m * m') (e + e') := by
  simp only [magnitude, zpow_add₀ (two_ne_zero (α := ℚ)), Nat.cast_mul]
  ring

/-- The weight of the last mantissa bit. -/
theorem two_zpow_neg_23 : (2 : ℚ) ^ (-23 : Int) = 1 / 2 ^ 23 := by
  rw [zpow_neg, one_div]
  rfl

/-- A 24-bit significand in the binade of the biased exponent `k` (spec/40_numerics.md R93). -/
theorem magnitude_significand (n : Nat) (k : Int) :
    magnitude (2 ^ 23 + n) (k - 150) = (2 : ℚ) ^ (k - 127) * (1 + n * (2 : ℚ) ^ (-23 : Int)) := by
  rw [magnitude, show k - 150 = k - 127 + -23 by ring, zpow_add₀ two_ne_zero, two_zpow_neg_23]
  push_cast
  ring

/-! ### Signed values -/

/-- The rational number of a finite value `(-1)^neg * mant * 2^exp` (spec/40_numerics.md R93). -/
def signedMagnitude (neg : Bool) (mant : Nat) (exp : Int) : ℚ :=
  if neg then -magnitude mant exp else magnitude mant exp

theorem toRat?_finite (neg : Bool) (mant : Nat) (exp : Int) :
    (Val32.finite neg mant exp).toRat? = some (signedMagnitude neg mant exp) := rfl

/-- A value is a rational number only if it is finite. -/
theorem finite_of_toRat? {v : Val32} {q : ℚ} (h : v.toRat? = some q) :
    ∃ neg mant exp, v = .finite neg mant exp ∧ q = signedMagnitude neg mant exp := by
  cases v with
  | nan => cases h
  | inf neg => cases h
  | finite neg mant exp => exact ⟨neg, mant, exp, rfl, (Option.some.inj h).symm⟩

@[simp] theorem abs_signedMagnitude (neg : Bool) (m : Nat) (e : Int) : |signedMagnitude neg m e| = magnitude m e := by
  cases neg <;> simp [signedMagnitude, abs_of_nonneg (magnitude_nonneg m e)]

@[simp] theorem signedMagnitude_eq_zero_iff (neg : Bool) (m : Nat) (e : Int) : signedMagnitude neg m e = 0 ↔ m = 0 := by
  cases neg <;> simp [signedMagnitude]

theorem signedMagnitude_mul (neg neg' : Bool) (m m' : Nat) (e e' : Int) :
    signedMagnitude neg m e * signedMagnitude neg' m' e' = signedMagnitude (neg ^^ neg') (m * m') (e + e') := by
  cases neg <;> cases neg' <;> simp [signedMagnitude, ← magnitude_mul]

theorem signedMagnitude_eq_pow_mul (s : BitVec 1) (m : Nat) (e : Int) :
    signedMagnitude (s == 1#1) m e = (-1) ^ s.toNat * magnitude m e := by
  rcases bit_eq_zero_or_one s with rfl | rfl <;> simp [signedMagnitude]

/-- `signedUnits` counts the units `2^unit` of the signed value. -/
theorem signedUnits_mul_unit (neg : Bool) (m : Nat) {e unit : Int} (h : unit ≤ e) :
    (signedUnits neg m e unit : ℚ) * (2 : ℚ) ^ unit = signedMagnitude neg m e := by
  have hm := magnitude_mul_pow m (e - unit).toNat unit
  rw [show unit + ((e - unit).toNat : Int) = e by omega] at hm
  rw [signedMagnitude, ← hm]
  cases neg <;> simp [signedUnits, magnitude]

/-- The value of a normalized pattern (spec/40_numerics.md R93). -/
theorem toRat?_normalized (S : BitVec 1) {E : BitVec 8} (M : BitVec 23) (h0 : E ≠ 0#8) (h255 : E ≠ 255#8) :
    (val32 (joinFields S E M)).toRat? =
      some ((-1) ^ S.toNat * (2 : ℚ) ^ ((E.toNat : Int) - 127) * (1 + M.toNat * (2 : ℚ) ^ (-23 : Int))) := by
  rw [val32_joinFields, if_neg h255, if_neg h0, toRat?_finite, signedMagnitude_eq_pow_mul, magnitude_significand,
    mul_assoc]

/-- The value of a pattern of exponent field 0, zeros among them (spec/40_numerics.md R93). -/
theorem toRat?_subnormal (S : BitVec 1) (M : BitVec 23) :
    (val32 (joinFields S 0#8 M)).toRat? =
      some ((-1) ^ S.toNat * (2 : ℚ) ^ (-126 : Int) * (M.toNat * (2 : ℚ) ^ (-23 : Int))) := by
  rw [val32_joinFields, if_neg (by decide), if_pos rfl, toRat?_finite, signedMagnitude_eq_pow_mul, magnitude,
    show (-149 : Int) = -126 + -23 from rfl, zpow_add₀ two_ne_zero]
  congr 1
  ring

/-! ### Rounding is a function of the rational magnitude -/

/-- Two ways to write one magnitude differ by a power of two moved between the two parts. -/
theorem round32_congr (neg : Bool) {m m' : Nat} {e e' : Int} (h : magnitude m e = magnitude m' e') :
    round32 neg m e = round32 neg m' e' := by
  wlog hle : e ≤ e' generalizing m m' e e'
  · exact (this h.symm (not_le.mp hle).le).symm
  · obtain ⟨t, rfl⟩ : ∃ t : Nat, e' = e + t := ⟨(e' - e).toNat, by omega⟩
    rw [← magnitude_mul_pow, magnitude_left_inj] at h
    rw [h, round32_mul_pow]

/-- Everything a finite value can be: that of a pattern of exponent field 0, or of a normalized pattern. -/
theorem val32_finite_cases {b : F32} {neg : Bool} {mant : Nat} {exp : Int} (h : val32 b = .finite neg mant exp) :
    (∃ m : BitVec 23, b = joinFields (BitVec.ofBool neg) 0#8 m ∧ mant = m.toNat ∧ exp = -149) ∨
    (∃ (e : BitVec 8) (m : BitVec 23), e ≠ 0#8 ∧ e ≠ 255#8 ∧ b = joinFields (BitVec.ofBool neg) e m ∧
      mant = 2 ^ 23 + m.toNat ∧ exp = (e.toNat : Int) - 150) := by
  obtain ⟨s, e, m, rfl⟩ := exists_joinFields b
  rw [val32_joinFields] at h
  by_cases h255 : e = 255#8
  · rw [if_pos h255] at h
    split at h <;> cases h
  · rw [if_neg h255] at h
    by_cases h0 : e = 0#8
    · rw [if_pos h0] at h
      cases h
      exact .inl ⟨m, by rw [ofBool_beq_one, h0], rfl, rfl⟩
    · rw [if_neg h0] at h
      cases h
      exact .inr ⟨e, m, h0, h255, by rw [ofBool_beq_one], rfl, rfl⟩

/-- A finite value rounds to the pattern that denotes it (spec/40_numerics.md R94). -/
theorem round32_of_val32 {b : F32} {neg : Bool} {mant : Nat} {exp : Int} (h : val32 b = .finite neg mant exp) :
    round32 neg mant exp = b := by
  rcases val32_finite_cases h with ⟨m, rfl, rfl, rfl⟩ | ⟨e, m, h0, h255, rfl, rfl, rfl⟩
  · exact round32_subnormal neg m
  · exact round32_normalized neg e m h0 h255

/-! ### Rounding is to nearest, ties to even -/

theorem magnitude_lt_binade (m : Nat) (e : Int) : magnitude m e < (2 : ℚ) ^ (binade m e + 1) := by
  have hlog : (m : ℚ) < (2 : ℚ) ^ (Nat.log2 m + 1) := mod_cast Nat.lt_log2_self
  calc magnitude m e < (2 : ℚ) ^ (Nat.log2 m + 1) * (2 : ℚ) ^ e := by
        rw [magnitude]
        exact mul_lt_mul_of_pos_right hlog (zpow_pos two_pos e)
    _ = (2 : ℚ) ^ ((Nat.log2 m : Int) + 1 + e) := by
        rw [zpow_add₀ two_ne_zero]
        norm_cast
    _ ≤ (2 : ℚ) ^ (binade m e + 1) := by
        apply zpow_le_zpow_right₀ one_le_two
        rw [binade]
        omega

theorem binade_le_magnitude {m : Nat} (hm : m ≠ 0) (e : Int) :
    binade m e = -126 ∨ (2 : ℚ) ^ binade m e ≤ magnitude m e := by
  rw [binade]
  rcases le_total ((Nat.log2 m : Int) + e) (-126) with h | h
  · exact .inl (max_eq_right h)
  · have hlog : (2 : ℚ) ^ Nat.log2 m ≤ m := mod_cast Nat.log2_self_le hm
    rw [max_eq_left h, zpow_add₀ two_ne_zero, zpow_natCast]
    exact .inr (mul_le_mul_of_nonneg_right hlog (zpow_nonneg zero_le_two e))

/-- An integer is nearest to a rational number, and even where that lies halfway between two. -/
def IsNearestEven (n' : Nat) (n : ℚ) : Prop :=
  |(n' : ℚ) - n| ≤ 1 / 2 ∧ (|(n' : ℚ) - n| = 1 / 2 → n' % 2 = 0)

theorem isNearestEven_halfEven (m sh : Nat) : IsNearestEven (halfEven m sh) (m / 2 ^ sh) := by
  obtain ⟨hlow, hhigh, heven⟩ := halfEven_spec m sh
  generalize halfEven m sh = h at *
  have hp : (0 : ℚ) < 2 ^ sh := by positivity
  obtain ⟨n, hn⟩ : ∃ n : ℚ, n = m / 2 ^ sh := ⟨_, rfl⟩
  have hm : (m : ℚ) = n * 2 ^ sh := by rw [hn, div_mul_cancel₀ _ hp.ne']
  have hlow' : 2 * (m : ℚ) ≤ (2 * h + 1) * 2 ^ sh := mod_cast hlow
  have hhigh' : 2 * (h : ℚ) * 2 ^ sh ≤ 2 * m + 2 ^ sh := mod_cast hhigh
  rw [hm] at hlow' hhigh'
  rw [← hn]
  refine ⟨abs_le.mpr ⟨?_, ?_⟩, fun htie => heven ?_⟩
  · have := le_of_mul_le_mul_right (by linarith : 2 * n * 2 ^ sh ≤ (2 * h + 1) * 2 ^ sh) hp
    linarith
  · have := le_of_mul_le_mul_right (by linarith : 2 * (h : ℚ) * 2 ^ sh ≤ (2 * n + 1) * 2 ^ sh) hp
    linarith
  · rcases (abs_eq (by norm_num)).mp htie with ht | ht
    · right
      have : 2 * (h : ℚ) * 2 ^ sh = 2 * m + 2 ^ sh := by
        rw [hm, show (h : ℚ) = n + 1 / 2 by linarith]
        ring
      exact_mod_cast this
    · left
      have : 2 * (m : ℚ) = (2 * h + 1) * 2 ^ sh := by
        rw [hm, show (h : ℚ) = n - 1 / 2 by linarith]
        ring
      exact_mod_cast this

theorem isNearestEven_self (n : Nat) : IsNearestEven n n := by
  simp [IsNearestEven]

/-- The magnitude in units of its binade's spacing, and the integer `roundedUnits` rounds it to (spec/40_numerics.md R94). -/
theorem isNearestEven_roundedUnits (m : Nat) (e : Int) :
    IsNearestEven (roundedUnits m e) (magnitude m e / (2 : ℚ) ^ (binade m e - 23)) := by
  have hunits : magnitude m e / (2 : ℚ) ^ (binade m e - 23) = m * (2 : ℚ) ^ (e - (binade m e - 23)) := by
    rw [magnitude, zpow_sub₀ two_ne_zero e, mul_div_assoc]
  rw [hunits, roundedUnits]
  generalize e - (binade m e - 23) = d
  split
  · next hd =>
    have hexact := isNearestEven_self (m * 2 ^ d.toNat)
    rw [Nat.cast_mul, Nat.cast_pow, ← zpow_natCast, Int.toNat_of_nonneg hd] at hexact
    exact hexact
  · next hd =>
    have hhalf := isNearestEven_halfEven m (-d).toNat
    rw [div_eq_mul_inv, ← zpow_natCast, Int.toNat_of_nonneg (by omega), zpow_neg, inv_inv] at hhalf
    exact hhalf

/-! ### Powers of two -/

theorem joinFields_exponent_eq_shift {n : Nat} (h : n < 2 ^ 8) :
    joinFields 0#1 (BitVec.ofNat 8 n) 0#23 = BitVec.ofNat 32 (n <<< 23) := by
  apply BitVec.eq_of_toNat_eq
  simp only [toNat_joinFields, BitVec.toNat_ofNat, Nat.shiftLeft_eq]
  omega

theorem pow2_of_normalized {k : Int} (hlow : -126 ≤ k) (hhigh : k ≤ 127) :
    pow2 k = BitVec.ofNat 32 ((k + 127).toNat <<< 23) := by
  obtain ⟨n, rfl⟩ : ∃ n : Nat, k = (n : Int) - 127 := ⟨(k + 127).toNat, by omega⟩
  have hn : (BitVec.ofNat 8 n).toNat = n := by
    rw [BitVec.toNat_ofNat, Nat.mod_eq_of_lt (by omega)]
  have hne : BitVec.ofNat 8 n ≠ 0#8 := by
    intro h
    rw [h, BitVec.toNat_zero] at hn
    omega
  have hpow := pow2_signedExponent (BitVec.ofNat 8 n)
  rw [signedExponent, hn, if_neg hne, joinFields_exponent_eq_shift (by omega)] at hpow
  rw [hpow, sub_add_cancel, Int.toNat_natCast]

/-! ### Addition -/

/-- `fadd32` on finite operands, with the exact sum in units of the smaller spacing (spec/40_numerics.md R96). -/
theorem fadd32_of_finite {a b : F32} {na nb : Bool} {ma mb : Nat} {ea eb : Int} (ha : val32 a = .finite na ma ea)
    (hb : val32 b = .finite nb mb eb) :
    ∃ t : Int, (t : ℚ) * (2 : ℚ) ^ min ea eb = signedMagnitude na ma ea + signedMagnitude nb mb eb ∧
      fadd32 a b = if t = 0 then some (pack (na && nb && ma == 0 && mb == 0) 0)
        else some (round32 (t < 0) t.natAbs (min ea eb)) := by
  refine ⟨signedUnits na ma ea (min ea eb) + signedUnits nb mb eb (min ea eb), ?_, ?_⟩
  · rw [Int.cast_add, add_mul, signedUnits_mul_unit na ma (min_le_left ea eb),
      signedUnits_mul_unit nb mb (min_le_right ea eb)]
  · rw [fadd32, ha, hb]

/-- Rounding the absolute value of an integer number of units. -/
theorem round32_natAbs {neg : Bool} {t unit exp : Int} {mant : Nat} (h : magnitude mant exp = |(t : ℚ) * (2 : ℚ) ^ unit|) :
    round32 neg t.natAbs unit = round32 neg mant exp := by
  apply round32_congr
  rw [h, magnitude, Nat.cast_natAbs, Int.cast_abs, abs_mul, abs_of_pos (zpow_pos two_pos unit : (0 : ℚ) < _)]

theorem pack_zero (neg : Bool) : pack neg 0 = if neg = true then 0x80000000#32 else 0x00000000#32 := by
  cases neg <;> decide

theorem fadd32_of_not_finite {a b : F32} (h : (val32 a).toRat? = none ∨ (val32 b).toRat? = none) : fadd32 a b = none := by
  rw [fadd32]
  cases ha : val32 a with
  | nan => rfl
  | inf na => rfl
  | finite na ma ea =>
    cases hb : val32 b with
    | nan => rfl
    | inf nb => rfl
    | finite nb mb eb =>
      rw [ha, hb, toRat?_finite, toRat?_finite] at h
      simp at h

/-- The pattern of -0 is the finite value with a minus sign and magnitude 0 (spec/40_numerics.md R93). -/
theorem eq_negZero_iff {b : F32} {neg : Bool} {mant : Nat} {exp : Int} (h : val32 b = .finite neg mant exp) :
    b = 0x80000000#32 ↔ neg = true ∧ mant = 0 := by
  constructor
  · rintro rfl
    rw [show val32 0x80000000#32 = .finite true 0 (-149) by decide] at h
    cases h
    exact ⟨rfl, rfl⟩
  · rintro ⟨rfl, rfl⟩
    rw [← round32_of_val32 h, round32, if_pos rfl]
    decide

/-! ### The classes of pattern as values -/

theorem signOf_beq_one (b : F32) : (signOf b == 1#1) = b.getLsbD 31 := by
  rw [Bool.eq_iff_iff, beq_iff_eq, signOf_eq_one_iff]

theorem patternClass_ne_nan {b : F32} {neg : Bool} {mant : Nat} {exp : Int} (h : val32 b = .finite neg mant exp) :
    patternClass b ≠ .nan := by
  rw [Ne, ← val32_eq_nan_iff, h]
  exact nofun

theorem val32_of_infinity {b : F32} (h : patternClass b = .infinity) : val32 b = .inf (b.getLsbD 31) := by
  have hsign := signOf_beq_one b
  obtain ⟨s, e, m, rfl⟩ := exists_joinFields b
  rw [patternClass_joinFields] at h
  split_ifs at h with h0 h0' h255 hm
  rw [← hsign, signOf_joinFields, val32_joinFields, if_pos h255, if_pos hm]

theorem val32_of_zero {b : F32} (h : patternClass b = .zero) : val32 b = .finite (b.getLsbD 31) 0 (-149) := by
  have hsign := signOf_beq_one b
  obtain ⟨s, e, m, rfl⟩ := exists_joinFields b
  rw [patternClass_joinFields] at h
  split_ifs at h with h0 hm
  rw [← hsign, signOf_joinFields, val32_joinFields, if_neg (by rw [h0]; decide), if_pos h0, hm, BitVec.toNat_zero]

/-- A finite value is of the class of a zero exactly when its magnitude is 0. -/
theorem patternClass_eq_zero_iff {b : F32} {neg : Bool} {mant : Nat} {exp : Int} (h : val32 b = .finite neg mant exp) :
    patternClass b = .zero ↔ mant = 0 := by
  rcases val32_finite_cases h with ⟨m, rfl, rfl, -⟩ | ⟨e, m, h0, h255, rfl, rfl, -⟩
  · simp [patternClass_joinFields, ← BitVec.toNat_inj]
  · simp [patternClass_joinFields, h0, h255]

/-! ### Multiplication -/

theorem fmul32_of_finite {a b : F32} {na nb : Bool} {ma mb : Nat} {ea eb : Int} (ha : val32 a = .finite na ma ea)
    (hb : val32 b = .finite nb mb eb) : fmul32 a b = some (round32 (na ^^ nb) (ma * mb) (ea + eb)) := by
  rw [fmul32, ha, hb]

theorem fmul32_of_nan {a : F32} (ha : patternClass a = .nan) (b : F32) : fmul32 a b = none := by
  rw [fmul32, (val32_eq_nan_iff a).mpr ha]

theorem pack_infinity (neg : Bool) : pack neg infinityMagnitude = BitVec.ofBool neg ++ 0xFF#8 ++ 0#23 :=
  pack_fields neg 0xFF#8 0#23

/-- An infinity with an operand that is neither a NaN nor a zero (spec/40_numerics.md R97). -/
theorem fmul32_of_infinity {a b : F32} (ha : patternClass a = .infinity) (hnan : patternClass b ≠ .nan)
    (hzero : patternClass b ≠ .zero) :
    fmul32 a b = some (BitVec.ofBool (a.getLsbD 31 ^^ b.getLsbD 31) ++ 0xFF#8 ++ 0#23) := by
  rw [← pack_infinity, fmul32, val32_of_infinity ha]
  cases hb : val32 b with
  | nan => exact absurd ((val32_eq_nan_iff b).mp hb) hnan
  | inf nb => rw [neg_of_val32_inf hb, signOf_beq_one]
  | finite nb mb eb =>
    have hmb : mb ≠ 0 := fun h => hzero ((patternClass_eq_zero_iff hb).mpr h)
    rw [neg_of_val32_finite hb, signOf_beq_one]
    exact if_neg hmb

/-- Zero times infinity has no answer (spec/93_implementation_defined.md U4). -/
theorem fmul32_infinity_zero {a b : F32} (ha : patternClass a = .infinity) (hb : patternClass b = .zero) :
    fmul32 a b = none := by
  rw [fmul32, val32_of_infinity ha, val32_of_zero hb]
  exact if_pos rfl

/-! ### IEEE equality -/

theorem eq32_of_nan {a b : F32} (h : patternClass a = .nan ∨ patternClass b = .nan) : eq32 a b = false :=
  if_pos h

theorem eq32_eq_true_iff {a b : F32} (ha : patternClass a ≠ .nan) (hb : patternClass b ≠ .nan) :
    eq32 a b = true ↔ a = b ∨ (patternClass a = .zero ∧ patternClass b = .zero) := by
  rw [eq32, if_neg (not_or.mpr ⟨ha, hb⟩)]
  split
  · next hzero => exact iff_of_true rfl (.inr hzero)
  · next hzero => rw [beq_iff_eq, or_iff_left hzero]

/-- Patterns with equal finite values are equal, or both are zeros: the value fixes the magnitude, and the sign unless it is 0. -/
theorem eq_or_zeros_of_values_eq {a b : F32} {na nb : Bool} {ma mb : Nat} {ea eb : Int} (ha : val32 a = .finite na ma ea)
    (hb : val32 b = .finite nb mb eb) (h : signedMagnitude na ma ea = signedMagnitude nb mb eb) :
    a = b ∨ (ma = 0 ∧ mb = 0) := by
  have hmag := congrArg abs h
  rw [abs_signedMagnitude, abs_signedMagnitude] at hmag
  by_cases hsign : na = nb
  · left
    rw [← round32_of_val32 ha, ← round32_of_val32 hb, hsign, round32_congr nb hmag]
  · right
    have hzero : magnitude ma ea = 0 := by
      have hnonneg := magnitude_nonneg mb eb
      obtain rfl : nb = !na := Bool.eq_not.mpr (Ne.symm hsign)
      cases na with
      | false =>
        have hneg : magnitude ma ea = -magnitude mb eb := h
        linarith
      | true =>
        have hneg : -magnitude ma ea = magnitude mb eb := h
        linarith
    have hzero' := hmag.symm.trans hzero
    exact ⟨(magnitude_eq_zero_iff _ _).mp hzero, (magnitude_eq_zero_iff _ _).mp hzero'⟩

/-! ### The statements -/

/-- Settles O45: each row is the value of the pattern by its fields. -/
theorem patternsHaveTheirBinary32Value : Obligations.PatternsHaveTheirBinary32Value := by
  unfold Obligations.PatternsHaveTheirBinary32Value
  intro S E M
  refine ⟨fun h0 h255 => toRat?_normalized S M h0 h255, ?_, ?_, ?_, ?_⟩
  · rintro rfl rfl
    exact ⟨-149, val32_joinFields S 0#8 0#23⟩
  · rintro rfl -
    exact toRat?_subnormal S M
  · rintro rfl rfl
    exact val32_joinFields S 255#8 0#23
  · rintro rfl hM
    exact (val32_joinFields S 255#8 M).trans ((if_pos rfl).trans (if_neg hM))

/-- Settles O46: the binade is `binade`, the integer is `roundedUnits`. -/
theorem roundingIsToNearestEven : Obligations.RoundingIsToNearestEven := by
  unfold Obligations.RoundingIsToNearestEven
  intro neg mant exp hmant
  obtain ⟨hnear, heven⟩ := isNearestEven_roundedUnits mant exp
  exact ⟨binade mant exp, roundedUnits mant exp, _, le_max_right _ _, magnitude_lt_binade mant exp,
    binade_le_magnitude hmant exp, rfl, hnear, heven, if_neg hmant⟩

/-- Settles O47: equal magnitudes differ by a power of two moved between their parts. -/
theorem roundingDependsOnTheValueOnly : Obligations.RoundingDependsOnTheValueOnly := by
  unfold Obligations.RoundingDependsOnTheValueOnly
  intro neg mant mant' exp exp' h
  exact round32_congr neg h

/-- Settles O48: the normalized patterns and those of exponent field 0. -/
theorem representableValuesRoundToThemselves : Obligations.RepresentableValuesRoundToThemselves := by
  unfold Obligations.RepresentableValuesRoundToThemselves
  intro b neg mant exp h
  exact round32_of_val32 h

/-- Settles O49: each power and each weight is the pattern of its exponent field. -/
theorem powersOfTwoAndWeights : Obligations.PowersOfTwoAndWeights := by
  unfold Obligations.PowersOfTwoAndWeights
  refine ⟨fun k hlow hhigh => pow2_of_normalized hlow hhigh, by decide, by decide, fun i hi => ?_⟩
  rw [weight_eq i hi, joinFields_exponent_eq_shift (by omega)]

/-- Settles O50: the integer `t` of `fadd32_of_finite` is the exact sum in units, so its sign and its zero are those of the sum. -/
theorem additionIsTheExactSumRounded : Obligations.AdditionIsTheExactSumRounded := by
  unfold Obligations.AdditionIsTheExactSumRounded
  refine ⟨fun a b qa qb mant exp hqa hqb hne hmag => ?_, fun a b qa qb hqa hqb hzero => ?_, fun a b h => ?_⟩
  · obtain ⟨na, ma, ea, ha, rfl⟩ := finite_of_toRat? hqa
    obtain ⟨nb, mb, eb, hb, rfl⟩ := finite_of_toRat? hqb
    obtain ⟨t, ht, hadd⟩ := fadd32_of_finite ha hb
    rw [← ht] at hne hmag ⊢
    have hunit : (0 : ℚ) < 2 ^ min ea eb := zpow_pos two_pos _
    have hsign : (t : ℚ) * (2 : ℚ) ^ min ea eb < 0 ↔ t < 0 := by
      simp only [mul_neg_iff, hunit, hunit.not_gt, and_true, and_false, false_or, Int.cast_lt_zero]
    have ht0 : t ≠ 0 := by
      rintro rfl
      simp at hne
    rw [hadd, if_neg ht0, round32_natAbs hmag, decide_eq_decide.mpr hsign]
  · obtain ⟨na, ma, ea, ha, rfl⟩ := finite_of_toRat? hqa
    obtain ⟨nb, mb, eb, hb, rfl⟩ := finite_of_toRat? hqb
    obtain ⟨t, ht, hadd⟩ := fadd32_of_finite ha hb
    rw [hzero, mul_eq_zero_iff_right (zpow_ne_zero _ two_ne_zero), Int.cast_eq_zero] at ht
    have hzeros : a = 0x80000000#32 ∧ b = 0x80000000#32 ↔ (na && nb && ma == 0 && mb == 0) = true := by
      rw [eq_negZero_iff ha, eq_negZero_iff hb]
      simp only [Bool.and_eq_true, beq_iff_eq]
      tauto
    rw [hadd, if_pos ht, pack_zero]
    simp only [hzeros]
  · exact fadd32_of_not_finite h

/-- Settles O51: finite operands, an infinity on either side, a NaN on either side, a zero with an infinity. -/
theorem multiplicationIsTheExactProductRounded : Obligations.MultiplicationIsTheExactProductRounded := by
  unfold Obligations.MultiplicationIsTheExactProductRounded
  refine ⟨fun a b qa qb mant exp hqa hqb hmag => ?_, fun a b hinf ha hb ha' hb' => ?_, fun a b h => ?_,
    fun a b ha hb => ?_⟩
  · obtain ⟨na, ma, ea, ha, rfl⟩ := finite_of_toRat? hqa
    obtain ⟨nb, mb, eb, hb, rfl⟩ := finite_of_toRat? hqb
    rw [signedMagnitude_mul, abs_signedMagnitude] at hmag
    rw [fmul32_of_finite ha hb, neg_of_val32_finite ha, neg_of_val32_finite hb, signOf_beq_one, signOf_beq_one,
      round32_congr _ hmag]
  · rcases hinf with hinf | hinf
    · exact fmul32_of_infinity hinf hb hb'
    · rw [fmul32_comm, Bool.xor_comm]
      exact fmul32_of_infinity hinf ha ha'
  · rcases h with h | h
    · exact fmul32_of_nan h b
    · rw [fmul32_comm]
      exact fmul32_of_nan h a
  · have h := fmul32_infinity_zero hb ha
    exact ⟨(fmul32_comm a b).trans h, h⟩

/-- Settles O52: on finite operands, equal values are equal patterns or two zeros. -/
theorem ieeeEqualityIsEqualityOfValues : Obligations.IeeeEqualityIsEqualityOfValues := by
  unfold Obligations.IeeeEqualityIsEqualityOfValues
  refine ⟨fun a b h => eq32_of_nan h, fun a b ha hb => eq32_eq_true_iff ha hb, fun a b qa qb hqa hqb => ?_⟩
  obtain ⟨na, ma, ea, ha, rfl⟩ := finite_of_toRat? hqa
  obtain ⟨nb, mb, eb, hb, rfl⟩ := finite_of_toRat? hqb
  rw [eq32_eq_true_iff (patternClass_ne_nan ha) (patternClass_ne_nan hb), patternClass_eq_zero_iff ha,
    patternClass_eq_zero_iff hb]
  constructor
  · rintro (rfl | ⟨rfl, rfl⟩)
    · exact Option.some.inj (hqa.symm.trans hqb)
    · rw [(signedMagnitude_eq_zero_iff _ _ _).mpr rfl, (signedMagnitude_eq_zero_iff _ _ _).mpr rfl]
  · exact eq_or_zeros_of_values_eq ha hb

end Sys2Proof.Machine
end

section
/-!
PROOFS. What the decoder units drive, as numbers (spec/42_field_decoder.md sections 3 and 4), and the order of the accumulations
and of the units.
-/

namespace Sys2Proof.Machine

/-! ### Orders of three -/

/-- The six orders of three entries. -/
theorem perm_triple_cases {α : Type} {l : List α} {a b c : α} (h : l.Perm [a, b, c]) :
    l = [a, b, c] ∨ l = [b, a, c] ∨ l = [c, b, a] ∨ l = [b, c, a] ∨ l = [c, a, b] ∨ l = [a, c, b] := by
  simpa [List.permutations, List.permutationsAux, List.permutationsAux.rec] using List.mem_permutations.mpr h

/-! ### Values of the decoded patterns -/

/-- ED drives the exact power of two (spec/42_field_decoder.md R153). -/
theorem toRat?_exponentDecoder {E : BitVec 8} (h255 : E ≠ 255#8) :
    (val32 (exponentDecoder E)).toRat? = some ((2 : ℚ) ^ ((E.toNat : Int) - 127)) := by
  rw [exponentDecoder_eq]
  by_cases h0 : E = 0#8
  · rw [if_pos h0, toRat?_subnormal, h0]
    norm_num
  · rw [if_neg h0, toRat?_normalized 0#1 0#23 h0 h255]
    simp

/-- The significand `1 + M * 2^-23` (spec/42_field_decoder.md R157). -/
theorem toRat?_significand (M : BitVec 23) :
    (val32 (joinFields 0#1 127#8 M)).toRat? = some (1 + (M.toNat : ℚ) / 2 ^ 23) := by
  rw [toRat?_normalized 0#1 M (by decide) (by decide), two_zpow_neg_23, mul_one_div]
  simp

/-! ### The order of the accumulations -/

/-- What bit `i` of the mantissa adds to the accumulator, in units of `2^-23`. -/
def mantissaTerm (m : BitVec 23) (i : Nat) : Nat := if m.toNat.testBit i then 2 ^ i else 0

/-- A stage adds its term, as long as the sum stays below 2 (spec/42_field_decoder.md R155). -/
theorem accumulatorStage_term (m j : BitVec 23) {i : Nat} (hi : i < 23) (h : j.toNat + mantissaTerm m i < 2 ^ 23) :
    accumulatorStage m (joinFields 0#1 127#8 j) i =
      some (joinFields 0#1 127#8 (BitVec.ofNat 23 (j.toNat + mantissaTerm m i))) := by
  rw [mantissaTerm] at h ⊢
  by_cases hbit : m.toNat.testBit i
  · rw [if_pos hbit] at h
    rw [accumulatorStage_eq m j i hi h]
  · rw [if_neg hbit, add_zero, ofNat_toNat_self, accumulatorStage, mantissaBit, BitVec.getLsbD, if_neg hbit]

/-- Accumulation in any order adds the terms of the bits it visits. -/
theorem accumulateInOrder_eq (m : BitVec 23) (order : List Nat) (j : BitVec 23) (hbits : ∀ i ∈ order, i < 23)
    (h : j.toNat + (order.map (mantissaTerm m)).sum < 2 ^ 23) :
    accumulateInOrder m (joinFields 0#1 127#8 j) order =
      some (joinFields 0#1 127#8 (BitVec.ofNat 23 (j.toNat + (order.map (mantissaTerm m)).sum))) := by
  induction order generalizing j with
  | nil => simp [accumulateInOrder]
  | cons i rest ih =>
    rw [List.map_cons, List.sum_cons] at h ⊢
    have hj : (BitVec.ofNat 23 (j.toNat + mantissaTerm m i)).toNat = j.toNat + mantissaTerm m i := by
      rw [BitVec.toNat_ofNat, Nat.mod_eq_of_lt (by omega)]
    have hrest := ih (BitVec.ofNat 23 (j.toNat + mantissaTerm m i)) (fun k hk => hbits k (List.mem_cons_of_mem i hk))
    rw [hj, add_assoc] at hrest
    rw [accumulateInOrder, accumulatorStage_term m j (hbits i List.mem_cons_self) (by omega)]
    exact hrest h

/-- The terms of the lowest `n` bits are the mantissa modulo `2^n`. -/
theorem sum_mantissaTerm_range (m : BitVec 23) (n : Nat) : ((List.range n).map (mantissaTerm m)).sum = m.toNat % 2 ^ n := by
  induction n with
  | zero => simp [Nat.mod_one]
  | succ n ih =>
    rw [List.range_succ, List.map_append, List.sum_append, ih, mod_pow_succ, List.map_singleton, List.sum_singleton,
      mantissaTerm]

/-- Accumulating all bits from 1.0, in any order, gives the significand (spec/42_field_decoder.md R159). -/
theorem accumulateInOrder_of_perm (m : BitVec 23) {order : List Nat} (h : order.Perm (List.range 23)) :
    accumulateInOrder m Config.plusOne order = some (joinFields 0#1 127#8 m) := by
  have hbits : ∀ i ∈ order, i < 23 := fun i hi => List.mem_range.mp (h.mem_iff.mp hi)
  have hsum : (order.map (mantissaTerm m)).sum = m.toNat := by
    rw [(h.map (mantissaTerm m)).sum_eq, sum_mantissaTerm_range, Nat.mod_eq_of_lt m.isLt]
  have hm := m.isLt
  have hall := accumulateInOrder_eq m order 0#23 hbits (by rw [hsum, BitVec.toNat_zero]; omega)
  rwa [hsum, BitVec.toNat_zero, zero_add, ofNat_toNat_self] at hall

/-! ### The order of the parts of decode -/

/-- `decode.sign`, `decode.exponent` and `decode.mantissa` in any order bring the word of their three operands to `x` (log entry 5). -/
theorem execAll_decodeParts (sign : BitVec 1) (exponent : BitVec 8) (mantissa : BitVec 23) (s : State) {parts : List Instr}
    (h : parts.Perm [.decodeSign sign, .decodeExponent exponent, .decodeMantissa mantissa]) :
    execAll parts s = .next (settledOn (joinFields sign exponent mantissa)) := by
  rcases perm_triple_cases h with rfl | rfl | rfl | rfl | rfl | rfl <;>
    simp [execAll, exec_decodeSign_eq, exec_decodeExponent_eq, exec_decodeMantissa_eq, withSign, withExponent, withMantissa]

/-- What a decoder unit does to a state: it drives its own signals from the fields (spec/10_state.md R21). -/
def State.driveDecoderUnit (s : State) : FunctionalUnit → State
  | .sd => s.driveSignValue (signDecoder s.sign)
  | .ed => s.driveExponentValue (signedExponent s.exponent) (exponentDecoder s.exponent)
  | .ma => s.driveAccumulator (Vector.ofFn fun i : Fin 24 => accumulatorWire s.mantissa i)
  | .fx => s
  | .rm => s

theorem evaluateUnit_decoder (s : State) {unit : FunctionalUnit} (h : unit ∈ [FunctionalUnit.sd, .ed, .ma]) :
    s.evaluateUnit unit = some (s.driveDecoderUnit unit) := by
  cases unit with
  | sd => rfl
  | ed => rfl
  | ma => exact evaluateUnit_ma s
  | fx => simp at h
  | rm => simp at h

/-- No decoder unit reads or drives what another drives, so any two may change places. -/
theorem driveDecoderUnit_comm (s : State) (u v : FunctionalUnit) :
    (s.driveDecoderUnit u).driveDecoderUnit v = (s.driveDecoderUnit v).driveDecoderUnit u := by
  cases u <;> cases v <;>
    simp [State.driveDecoderUnit, State.driveSignValue, State.driveExponentValue, State.driveAccumulator]

theorem evaluateUnits_decoders_append {units : List FunctionalUnit} (h : ∀ u ∈ units, u ∈ [FunctionalUnit.sd, .ed, .ma])
    (rest : List FunctionalUnit) (s : State) :
    evaluateUnits (units ++ rest) s = evaluateUnits rest (units.foldl State.driveDecoderUnit s) := by
  induction units generalizing s with
  | nil => rfl
  | cons u units ih =>
    obtain ⟨hu, hunits⟩ := List.forall_mem_cons.mp h
    rw [List.cons_append, evaluateUnits, evaluateUnit_decoder s hu]
    exact ih hunits _

/-- After FX and the decoder units, every signal but RM's own is settled on `x`. -/
theorem driveDecoderUnits_eq (s : State) :
    [FunctionalUnit.sd, .ed, .ma].foldl State.driveDecoderUnit (s.driveRaw (extractFields s.x)) =
      (settledOn s.x).driveProducts s.p s.recomposed := by
  have hlast : (Vector.ofFn fun i : Fin 24 => accumulatorWire (mantissaOf s.x) i)[23] =
      joinFields 0#1 127#8 (mantissaOf s.x) := by
    rw [Vector.getElem_ofFn, accumulatorWire_last]
  simp only [List.foldl_cons, List.foldl_nil, State.driveDecoderUnit, State.driveRaw, State.driveSignValue,
    State.driveExponentValue, State.driveAccumulator, State.driveProducts, extractFields, settledOn, hlast]

/-- RM completes the settled block, whatever its signals were. -/
theorem evaluateUnit_rm_settledOn (x : BitVec 32) (p r : F32) :
    ((settledOn x).driveProducts p r).evaluateUnit .rm = some (settledOn x) := by
  have hproducts := recomposeProducts_decoded (extractFields x)
  exact congrArg (Option.map _) hproducts

/-- Every order of the units SD, ED and MA, between FX and RM, is the evaluation of the block (spec/20_memory.md R47). -/
theorem evaluateUnits_eq (s : State) {units : List FunctionalUnit} (h : units.Perm [.sd, .ed, .ma]) :
    evaluateUnits ([.fx] ++ units ++ [.rm]) s = .next (settledOn s.x) := by
  have horder : units.foldl State.driveDecoderUnit (s.driveRaw (extractFields s.x)) =
      [FunctionalUnit.sd, .ed, .ma].foldl State.driveDecoderUnit (s.driveRaw (extractFields s.x)) :=
    h.foldl_eq' (fun u _ v _ t => driveDecoderUnit_comm t u v) _
  have hdecoders := evaluateUnits_decoders_append (fun u hu => h.mem_iff.mp hu) [.rm] (s.driveRaw (extractFields s.x))
  rw [horder, driveDecoderUnits_eq, evaluateUnits, evaluateUnit_rm_settledOn] at hdecoders
  exact hdecoders

/-! ### The statements -/

/-- Settles O20: ED reads the replaced exponent field; field 255 gives the pattern of +infinity. -/
theorem exponentValueIsTheExactPowerOfTwo : Obligations.ExponentValueIsTheExactPowerOfTwo := by
  unfold Obligations.ExponentValueIsTheExactPowerOfTwo
  intro exponent s
  refine ⟨settledOn (withExponent s.x exponent), exec_decodeExponent_eq exponent s, ?_⟩
  rw [settledOn_exponentValue, exponentOf_withExponent]
  refine ⟨toRat?_exponentDecoder, ?_⟩
  rintro rfl
  exact (congrArg val32 (exponentDecoder_eq 255#8)).trans (val32_joinFields 0#1 255#8 0#23)

/-- Settles O23: MA drives the significand of the replaced mantissa field. -/
theorem mantissaValueIsTheExactSignificand : Obligations.MantissaValueIsTheExactSignificand := by
  unfold Obligations.MantissaValueIsTheExactSignificand
  intro mantissa s
  have hm : (mantissa.toNat : ℚ) < 2 ^ 23 := mod_cast mantissa.isLt
  have hdomain : inMantissaValueDomain (joinFields 0#1 127#8 mantissa) = true :=
    (inMantissaValueDomain_joinFields _ _ _).mpr ⟨rfl, rfl⟩
  rw [inMantissaValueDomain, Bool.and_eq_true, decide_eq_true_eq, decide_eq_true_eq] at hdomain
  refine ⟨settledOn (withMantissa s.x mantissa), _, exec_decodeMantissa_eq mantissa s, ?_, rfl, ?_, ?_, ?_⟩
  · rw [settledOn_mantissaValue, mantissaOf_withMantissa, toRat?_significand]
  · exact le_add_of_nonneg_right (by positivity)
  · have : (mantissa.toNat : ℚ) / 2 ^ 23 < 1 := (div_lt_one (by positivity)).mpr hm
    linarith
  · rw [settledOn_mantissaValue, mantissaOf_withMantissa]
    exact hdomain

/-- Settles O24: each bit adds its term once, whatever the order. -/
theorem accumulationOrderIsNotObservable : Obligations.AccumulationOrderIsNotObservable := by
  unfold Obligations.AccumulationOrderIsNotObservable
  intro mantissa s order h
  refine ⟨settledOn (withMantissa s.x mantissa), exec_decodeMantissa_eq mantissa s, ?_⟩
  rw [settledOn_mantissaValue, mantissaOf_withMantissa]
  exact accumulateInOrder_of_perm mantissa h

/-- Settles O25: the operations replace disjoint fields, and the units drive disjoint signals. -/
theorem decodeIsItsThreePartsInAnyOrder : Obligations.DecodeIsItsThreePartsInAnyOrder := by
  unfold Obligations.DecodeIsItsThreePartsInAnyOrder
  intro sign exponent mantissa s
  exact ⟨settledOn (joinFields sign exponent mantissa), exec_decode_eq sign exponent mantissa s,
    fun parts h => execAll_decodeParts sign exponent mantissa s h,
    fun units h => evaluateUnits_eq (s.driveInput (joinFields sign exponent mantissa)) h⟩

end Sys2Proof.Machine
end

section
/-!
PROOFS. The Recomposer and the pipeline (spec/43_recomposer.md, spec/44_pipeline.md section 3): RM's domain written out, the order of
the factors, and the recomposed pattern against the input, as a pattern and as a number.
-/

namespace Sys2Proof.Machine

/-! ### The operand domain written out -/

theorem inSignValueDomain_iff (v : F32) : inSignValueDomain v = true ↔ v = 0x3F800000#32 ∨ v = 0xBF800000#32 := by
  rw [inSignValueDomain, Bool.or_eq_true, beq_iff_eq, beq_iff_eq]

theorem inMantissaValueDomain_iff (v : F32) :
    inMantissaValueDomain v = true ↔ 0x3F800000#32 ≤ v ∧ v ≤ 0x3FFFFFFF#32 := by
  rw [inMantissaValueDomain, Bool.and_eq_true, decide_eq_true_eq, decide_eq_true_eq]

theorem inExponentValueDomain_iff (v : F32) :
    inExponentValueDomain v = true ↔
      v = 0x00400000#32 ∨ ∃ E : Nat, 1 ≤ E ∧ E ≤ 255 ∧ v = BitVec.ofNat 32 (E <<< 23) := by
  obtain ⟨s, e, m, rfl⟩ := exists_joinFields v
  have hleast : 0x00400000#32 = joinFields 0#1 0#8 0x400000#23 := by decide
  have he := e.isLt
  have he0 : e ≠ 0#8 ↔ 1 ≤ e.toNat := by
    rw [Nat.one_le_iff_ne_zero, Ne, Ne, ← BitVec.toNat_inj, BitVec.toNat_zero]
  rw [inExponentValueDomain_joinFields, hleast, joinFields_inj]
  constructor
  · rintro ⟨rfl, ⟨rfl, rfl⟩ | ⟨hne, rfl⟩⟩
    · exact .inl ⟨rfl, rfl, rfl⟩
    · refine .inr ⟨e.toNat, he0.mp hne, by omega, ?_⟩
      rw [← joinFields_exponent_eq_shift he, ofNat_toNat_self]
  · rintro (⟨rfl, rfl, rfl⟩ | ⟨E, hlow, hhigh, hv⟩)
    · exact ⟨rfl, .inl ⟨rfl, rfl⟩⟩
    · rw [← joinFields_exponent_eq_shift (by omega)] at hv
      obtain ⟨rfl, rfl, rfl⟩ := joinFields_inj.mp hv
      rw [BitVec.toNat_ofNat, Nat.mod_eq_of_lt (by omega)] at he0
      exact ⟨rfl, .inr ⟨he0.mpr hlow, rfl⟩⟩

/-! ### The order of the factors -/

/-- The exponent value times a signed significand, whatever the sign: the recomposed pattern (spec/40_numerics.md R97). -/
theorem fmul32_exponent_significand (s : BitVec 1) (e : BitVec 8) (m : BitVec 23) :
    fmul32 (exponentDecoder e) (joinFields s 127#8 m) = some (recomposedOf ⟨s, e, m⟩) := by
  rw [exponentDecoder_eq, recomposedOf]
  by_cases h0 : e = 0#8
  · rw [if_pos h0, if_pos h0, fmul32_least, BitVec.zero_xor]
  · rw [if_neg h0, if_neg h0]
    by_cases h255 : e = 255#8
    · rw [if_pos h255, h255, fmul32_infinity, BitVec.zero_xor]
    · rw [if_neg h255, fmul32_normalized _ _ e m h0 h255, BitVec.zero_xor]

/-- The sign of the fields is the sign of the recomposed pattern, which is otherwise the same and never a NaN. -/
theorem recomposedOf_eq_joinFields (e : BitVec 8) (m : BitVec 23) :
    ∃ (e' : BitVec 8) (m' : BitVec 23), (e' ≠ 255#8 ∨ m' = 0#23) ∧ ∀ s, recomposedOf ⟨s, e, m⟩ = joinFields s e' m' := by
  by_cases h0 : e = 0#8
  · subst h0
    rcases recomposedOf_exponent_zero m with ⟨n, -, -, hn⟩ | ⟨-, hr⟩
    · exact ⟨0#8, n, .inl (by decide), hn⟩
    · exact ⟨1#8, 0#23, .inl (by decide), hr⟩
  · by_cases h255 : e = 255#8
    · exact ⟨255#8, 0#23, .inr rfl, fun s => (if_neg h0).trans (if_pos h255)⟩
    · exact ⟨e, m, .inl h255, fun s => (if_neg h0).trans (if_neg h255)⟩

/-- Multiplying the recomposed pattern of an unsigned triple by the sign value gives that of the signed triple. -/
theorem fmul32_sign_recomposedOf (s : BitVec 1) (e : BitVec 8) (m : BitVec 23) :
    fmul32 (signDecoder s) (recomposedOf ⟨0#1, e, m⟩) = some (recomposedOf ⟨s, e, m⟩) := by
  obtain ⟨e', m', hne, hr⟩ := recomposedOf_eq_joinFields e m
  rw [signDecoder_eq, hr, hr, fmul32_sign s 0#1 e' m' hne, BitVec.xor_zero]

/-- Multiplying `a` by `b` and then by `c` gives `r`. -/
def IsProduct (a b c r : F32) : Prop := ∃ q, fmul32 a b = some q ∧ fmul32 q c = some r

theorem IsProduct.swap {a b c r : F32} (h : IsProduct a b c r) : IsProduct b a c r := by
  rwa [IsProduct, fmul32_comm b a]

theorem IsProduct.left {a b c r : F32} (h : IsProduct a b c r) : (fmul32 a b).bind (fun q => fmul32 q c) = some r :=
  Option.bind_eq_some_iff.mpr h

theorem IsProduct.right {a b c r : F32} (h : IsProduct b c a r) : (fmul32 b c).bind (fun q => fmul32 a q) = some r := by
  simp only [fmul32_comm a]
  exact h.left

/-- Every order of what the decoder units drive has the same product (spec/43_recomposer.md R192). -/
theorem isProduct_of_perm (r : RawFields) {a b c : F32}
    (h : [a, b, c].Perm [signDecoder r.sign, exponentDecoder r.exponent, joinFields 0#1 127#8 r.mantissa]) :
    IsProduct a b c (recomposedOf r) := by
  obtain ⟨s, e, m⟩ := r
  have hse : IsProduct (signDecoder s) (exponentDecoder e) (joinFields 0#1 127#8 m) (recomposedOf ⟨s, e, m⟩) :=
    ⟨_, recomposeProducts_eq_some.mp (recomposeProducts_decoded ⟨s, e, m⟩)⟩
  have hem : IsProduct (exponentDecoder e) (joinFields 0#1 127#8 m) (signDecoder s) (recomposedOf ⟨s, e, m⟩) :=
    ⟨_, fmul32_exponent_significand 0#1 e m, (fmul32_comm _ _).trans (fmul32_sign_recomposedOf s e m)⟩
  have hsm : IsProduct (signDecoder s) (joinFields 0#1 127#8 m) (exponentDecoder e) (recomposedOf ⟨s, e, m⟩) := by
    refine ⟨joinFields s 127#8 m, ?_, (fmul32_comm _ _).trans (fmul32_exponent_significand s e m)⟩
    rw [signDecoder_eq, fmul32_sign s 0#1 127#8 m (.inl (by decide)), BitVec.xor_zero]
  have hcases := perm_triple_cases h
  simp only [List.cons.injEq, and_true] at hcases
  rcases hcases with ⟨rfl, rfl, rfl⟩ | ⟨rfl, rfl, rfl⟩ | ⟨rfl, rfl, rfl⟩ | ⟨rfl, rfl, rfl⟩ | ⟨rfl, rfl, rfl⟩ |
    ⟨rfl, rfl, rfl⟩
  · exact hse
  · exact hse.swap
  · exact hem.swap
  · exact hem
  · exact hsm.swap
  · exact hsm

/-! ### Exponent field 0: the rounded half against the input -/

/-- Half of `2^23 + M`, rounded to even, is never `M`: it could only be at the last mantissa, where the tie goes up. -/
theorem halfEven_significand_ne (m : BitVec 23) : halfEven (2 ^ 23 + m.toNat) 1 ≠ m.toNat := by
  have hm := m.isLt
  obtain ⟨hlow, hhigh, heven⟩ := halfEven_spec (2 ^ 23 + m.toNat) 1
  omega

theorem recomposedOf_exponent_zero_ne (s : BitVec 1) (m : BitVec 23) :
    recomposedOf ⟨s, 0#8, m⟩ ≠ joinFields s 0#8 m := by
  rcases recomposedOf_exponent_zero m with ⟨n, -, hn, hr⟩ | ⟨-, hr⟩
  · rw [hr, Ne, joinFields_inj]
    rintro ⟨-, -, rfl⟩
    exact halfEven_significand_ne n hn.symm
  · rw [hr, Ne, joinFields_inj]
    simp

/-- The value is the rounded half in units of `2^-149`, in both binades it can fall in. -/
theorem val32_recomposedOf_exponent_zero (s : BitVec 1) (m : BitVec 23) :
    val32 (recomposedOf ⟨s, 0#8, m⟩) = .finite (s == 1#1) (halfEven (2 ^ 23 + m.toNat) 1) (-149) := by
  rcases recomposedOf_exponent_zero m with ⟨n, -, hn, hr⟩ | ⟨hhalf, hr⟩
  · rw [hr, val32_joinFields, ← hn]
    rfl
  · rw [hr, val32_joinFields, hhalf]
    rfl

/-- The magnitude lies in `2^-127 .. 2^-126` (spec/44_pipeline.md section 3). -/
theorem magnitude_halfEven_significand_bounds (m : BitVec 23) :
    (2 : ℚ) ^ (-127 : Int) ≤ magnitude (halfEven (2 ^ 23 + m.toNat) 1) (-149) ∧
      magnitude (halfEven (2 ^ 23 + m.toNat) 1) (-149) ≤ (2 : ℚ) ^ (-126 : Int) := by
  obtain ⟨hlow, hhigh⟩ := halfEven_significand_bounds m
  have hleast : magnitude (2 ^ 22) (-149) = (2 : ℚ) ^ (-127 : Int) := by norm_num [magnitude]
  have hgreatest : magnitude (2 ^ 23) (-149) = (2 : ℚ) ^ (-126 : Int) := by norm_num [magnitude]
  exact ⟨hleast ▸ magnitude_mono hlow _, hgreatest ▸ magnitude_mono hhigh _⟩

theorem recomposedOf_getLsbD_sign (s : BitVec 1) (e : BitVec 8) (m : BitVec 23) :
    (recomposedOf ⟨s, e, m⟩).getLsbD 31 = (joinFields s e m).getLsbD 31 := by
  obtain ⟨e', m', -, hr⟩ := recomposedOf_eq_joinFields e m
  rw [← signOf_beq_one, ← signOf_beq_one, hr, signOf_joinFields, signOf_joinFields]

/-! ### One rounding of the exact product -/

/-- The recomposed pattern is the exact product, rounded (spec/43_recomposer.md R193). -/
theorem round32_significand (s : BitVec 1) {e : BitVec 8} (m : BitVec 23) (h255 : e ≠ 255#8) :
    round32 (s == 1#1) (2 ^ 23 + m.toNat) ((e.toNat : Int) - 150) = recomposedOf ⟨s, e, m⟩ := by
  by_cases h0 : e = 0#8
  · subst h0
    exact round32_half _ m
  · rw [round32_normalized _ e m h0 h255, ofBool_beq_one]
    exact ((if_neg h0).trans (if_neg h255)).symm

/-! ### The statements -/

/-- Settles O29: the three conditions of the domain, each written out. -/
theorem recomposeRefusesForeignOperands : Obligations.RecomposeRefusesForeignOperands := by
  unfold Obligations.RecomposeRefusesForeignOperands
  refine ⟨fun sv ev mv s h => exec_refuses (i := .recompose sv ev mv) h s, fun sv ev mv => ?_⟩
  rw [inRecomposeDomain, Bool.and_eq_true, Bool.and_eq_true, inSignValueDomain_iff, inExponentValueDomain_iff,
    inMantissaValueDomain_iff, and_assoc]

/-- Settles O31: the domain is what the decoder units drive, and there every order has one product. -/
theorem productOrderIsNotObservable : Obligations.ProductOrderIsNotObservable := by
  unfold Obligations.ProductOrderIsNotObservable
  intro sv ev mv a b c s h hperm
  refine ⟨settledOn (wordOfDecoded sv ev mv), exec_recompose_eq h s, ?_⟩
  obtain ⟨r, rfl, rfl, rfl⟩ := (inRecomposeDomain_iff sv ev mv).mp h
  have hrotate : [b, c, a].Perm [a, b, c] := List.perm_append_comm (l₁ := [b, c]) (l₂ := [a])
  rw [settledOn_recomposed, wordOfDecoded_decoded, extractFields_joinFields]
  exact ⟨(isProduct_of_perm r hperm).left, (isProduct_of_perm r (hrotate.trans hperm)).right⟩

/-- Settles O35: RM gives the fields of a normalized word back, and such a word is no NaN. -/
theorem normalizedInputsRoundTrip : Obligations.NormalizedInputsRoundTrip := by
  unfold Obligations.NormalizedInputsRoundTrip
  intro x s h0 h255
  rw [← exponentOf_eq_extractLsb'] at h0 h255
  have hr : recomposedOf (extractFields x) = x := (if_neg h0).trans ((if_neg h255).trans (joinFields_fieldsOf x))
  have hnan : patternClass x ≠ .nan := hr ▸ (patternClass_recomposedOf (extractFields x)).1
  refine ⟨settledOn x, exec_decompose_eq x s, hr, ?_⟩
  rw [settledOn_recomposed, hr]
  exact (eq32_eq_true_iff hnan hnan).mpr (.inl rfl)

/-- Settles O36: the recomposed pattern is the rounded half of the significand, which is no zero and never the input. -/
theorem exponentZeroInputsDeviate : Obligations.ExponentZeroInputsDeviate := by
  unfold Obligations.ExponentZeroInputsDeviate
  refine ⟨fun x s h => ?_, fun s => ⟨_, exec_decompose_eq _ s, by decide⟩,
    fun s => ⟨_, exec_decompose_eq _ s, by decide⟩⟩
  obtain ⟨S, E, M, rfl⟩ := exists_joinFields x
  rw [← exponentOf_eq_extractLsb', exponentOf_joinFields] at h
  subst h
  have hval := val32_recomposedOf_exponent_zero S M
  have hne := recomposedOf_exponent_zero_ne S M
  obtain ⟨hnan, hzero⟩ := patternClass_recomposedOf ⟨S, 0#8, M⟩
  have hnan' : patternClass (joinFields S 0#8 M) ≠ .nan := by
    rw [patternClass_joinFields, if_pos rfl]
    split <;> decide
  refine ⟨settledOn (joinFields S 0#8 M), signedMagnitude (S == 1#1) (halfEven (2 ^ 23 + M.toNat) 1) (-149),
    exec_decompose_eq _ s, ?_⟩
  rw [settledOn_recomposed, extractFields_joinFields, abs_signedMagnitude, hval]
  refine ⟨hne, ?_, recomposedOf_getLsbD_sign S 0#8 M, rfl, magnitude_halfEven_significand_bounds M⟩
  rw [Bool.eq_false_iff, Ne, eq32_eq_true_iff hnan hnan']
  exact not_or.mpr ⟨hne, fun hzeros => hzero hzeros.1⟩

/-- Settles O37: RM drives the infinity of the sign, and a word of exponent field 255 is that infinity or a NaN. -/
theorem exponentAllOnesGivesInfinity : Obligations.ExponentAllOnesGivesInfinity := by
  unfold Obligations.ExponentAllOnesGivesInfinity
  intro x s h
  refine ⟨settledOn x, exec_decompose_eq x s, ?_⟩
  rw [← signOf_eq_extractLsb', ← mantissaOf_eq_extractLsb']
  rw [← exponentOf_eq_extractLsb'] at h
  obtain ⟨S, E, M, rfl⟩ := exists_joinFields x
  rw [exponentOf_joinFields] at h
  subst h
  simp only [settledOn_recomposed, settledOn_exponentValue, settledOn_mantissaValue, extractFields_joinFields,
    signOf_joinFields, exponentOf_joinFields, mantissaOf_joinFields]
  have hr : recomposedOf ⟨S, 255#8, M⟩ = joinFields S 255#8 0#23 := rfl
  rw [hr]
  refine ⟨rfl, by decide, significandPattern_eq_or M, ?_, fun hM => ⟨?_, eq32_of_nan (.inr ?_)⟩⟩
  · rintro rfl
    rfl
  · rw [Ne, joinFields_inj]
    exact fun hfields => hM hfields.2.2.symm
  · rw [patternClass_joinFields, if_neg (by decide), if_pos rfl, if_neg hM]

/-- Settles O38: the exact product is a 24-bit significand in the binade of `E`, and rounding depends on its value alone. -/
theorem recomposedIsTheProductRoundedOnce : Obligations.RecomposedIsTheProductRoundedOnce := by
  unfold Obligations.RecomposedIsTheProductRoundedOnce
  intro S E M s h255
  refine ⟨settledOn (joinFields S E M), exec_decompose_eq _ s, fun mant exp h => ?_⟩
  have hmag : magnitude (2 ^ 23 + M.toNat) ((E.toNat : Int) - 150) = magnitude mant exp := by
    rw [magnitude_significand, h, two_zpow_neg_23, mul_one_div]
  rw [settledOn_recomposed, extractFields_joinFields, ← round32_significand S M h255, round32_congr _ hmag]

end Sys2Proof.Machine
end

section
/-!
PROOFS. The IEEE conditions of an evaluation (spec/40_numerics.md R100): each of ED, MA and the two multiplications of RM, by the
exponent field.
-/

namespace Sys2Proof.Machine

/-! ### Conditions are a function of the value -/

theorem isExact_mul_pow (m t : Nat) (e : Int) (hm : m ≠ 0) : isExact (m * 2 ^ t) e = isExact m (e + t) := by
  simp only [isExact, binade_mul_pow m t e hm]
  generalize binade m (e + t) - 23 = b
  by_cases h1 : 0 ≤ e - b
  · rw [decide_eq_true h1, decide_eq_true (by omega : 0 ≤ e + t - b), Bool.true_or, Bool.true_or]
  · by_cases h2 : 0 ≤ e + t - b
    · have hdvd : 2 ^ (-(e - b)).toNat ∣ m * 2 ^ t := (pow_dvd_pow 2 (by omega)).mul_left m
      rw [decide_eq_true h2, Nat.mod_eq_zero_of_dvd hdvd, beq_self_eq_true, Bool.or_true, Bool.true_or]
    · have hshift : (-(e - b)).toNat = (-(e + t - b)).toNat + t := by omega
      rw [decide_eq_false h1, decide_eq_false h2, hshift, pow_add, Nat.mul_mod_mul_right, Bool.false_or, Bool.false_or,
        Bool.eq_iff_iff, beq_iff_eq, beq_iff_eq, Nat.mul_eq_zero, or_iff_left (Nat.two_pow_pos t).ne']

/-- Moving a power of two between the two parts of a magnitude does not change the conditions of rounding it. -/
theorem roundConditions_mul_pow (m t : Nat) (e : Int) : roundConditions (m * 2 ^ t) e = roundConditions m (e + t) := by
  by_cases hm : m = 0
  · simp [roundConditions, hm]
  · have hpos : m * 2 ^ t ≠ 0 := Nat.mul_ne_zero hm (Nat.two_pow_pos t).ne'
    have hlog : (Nat.log2 (m * 2 ^ t) : Int) + e = Nat.log2 m + (e + t) := by
      rw [log2_mul_pow m t hm]
      push_cast
      ring
    have hmag : roundedMagnitude (m * 2 ^ t) e = roundedMagnitude m (e + t) := by
      rw [roundedMagnitude, roundedMagnitude, binade_mul_pow m t e hm, roundedUnits_mul_pow m t e hm]
    rw [roundConditions, roundConditions, if_neg hpos, if_neg hm, hmag, isExact_mul_pow m t e hm, hlog]

/-! ### ED -/

/-- The exponent field of a normalized pattern, as a number. -/
theorem toNat_bounds_of_normalized {e : BitVec 8} (h0 : e ≠ 0#8) (h255 : e ≠ 255#8) : 1 ≤ e.toNat ∧ e.toNat ≤ 254 := by
  have he := e.isLt
  rw [Ne, ← BitVec.toNat_inj, BitVec.toNat_ofNat] at h0 h255
  omega

/-- The conditions of ED: overflow and inexact for exponent field 255, none for any other field. -/
theorem pow2Conditions_signedExponent (e : BitVec 8) :
    pow2Conditions (signedExponent e) = { Conditions.none with overflow := e == 255#8, inexact := e == 255#8 } := by
  by_cases h0 : e = 0#8
  · subst h0
    decide
  · by_cases h255 : e = 255#8
    · subst h255
      decide
    · obtain ⟨hlow, hhigh⟩ := toNat_bounds_of_normalized h0 h255
      have hscale := roundConditions_mul_pow 1 23 (signedExponent e - 23)
      have hnone := roundConditions_significand 0#23 0 (signedExponent e - 23)
        (by simp only [signedExponent, Config.bias]; omega) (by simp only [signedExponent, Config.bias]; omega)
      rw [BitVec.toNat_zero, add_zero, pow_zero, mul_one] at hnone
      rw [one_mul, hnone, Nat.cast_ofNat, sub_add_cancel] at hscale
      rw [pow2Conditions, ← hscale, beq_eq_false_iff_ne.mpr h255]
      rfl

/-! ### RM -/

/-- A normalized `±2^k` times a significand in [1, 2) is exact. -/
theorem fmul32Conditions_normalized (s t : BitVec 1) {e : BitVec 8} (m : BitVec 23) (h0 : e ≠ 0#8) (h255 : e ≠ 255#8) :
    fmul32Conditions (joinFields s e 0#23) (joinFields t 127#8 m) = Conditions.none := by
  obtain ⟨hlow, hhigh⟩ := toNat_bounds_of_normalized h0 h255
  have hnone := roundConditions_significand m 23 ((e.toNat : Int) - 173) (by omega) (by omega)
  rw [fmul32Conditions, val32_joinFields, val32_joinFields, if_neg h255, if_neg h0, if_neg (by decide), if_neg (by decide)]
  simp only [BitVec.toNat_zero, add_zero]
  rw [Nat.mul_comm, show (e.toNat : Int) - 150 + (((127#8).toNat : Int) - 150) = (e.toNat : Int) - 173 by simp; ring, hnone]

/-- `±2^-127` times a significand in [1, 2): underflow and inexact for an odd mantissa (spec/40_numerics.md R98 E6). -/
theorem fmul32Conditions_least (s t : BitVec 1) (m : BitVec 23) :
    fmul32Conditions (joinFields s 0#8 0x400000#23) (joinFields t 127#8 m) =
      { Conditions.none with underflow := m.getLsbD 0, inexact := m.getLsbD 0 } := by
  rw [fmul32Conditions, val32_joinFields, val32_joinFields, if_neg (by decide), if_pos rfl, if_neg (by decide),
    if_neg (by decide), ← roundConditions_half m, Nat.mul_comm]
  rfl

/-- An infinity raises no condition. -/
theorem fmul32Conditions_infinity (s : BitVec 1) (b : F32) :
    fmul32Conditions (joinFields s 255#8 0#23) b = Conditions.none := by
  rw [fmul32Conditions, val32_joinFields, if_pos rfl, if_pos rfl]

theorem fmul32Conditions_comm (a b : F32) : fmul32Conditions a b = fmul32Conditions b a := by
  rw [fmul32Conditions, fmul32Conditions]
  rcases val32 a with _ | na | ⟨na, ma, ea⟩ <;> rcases val32 b with _ | nb | ⟨nb, mb, eb⟩ <;>
    simp [Nat.mul_comm, Int.add_comm]

/-- The conditions of a product of a signed exponent value and a significand: underflow and inexact for exponent field 0 with an
odd mantissa, none otherwise. -/
theorem fmul32Conditions_firstProduct (r : RawFields) (t : BitVec 1) (m : BitVec 23) :
    fmul32Conditions (firstProductOf r) (joinFields t 127#8 m) =
      { Conditions.none with
        underflow := r.exponent == 0#8 && m.getLsbD 0
        inexact := r.exponent == 0#8 && m.getLsbD 0 } := by
  obtain ⟨s, e, n⟩ := r
  rw [firstProductOf]
  dsimp only
  by_cases h0 : e = 0#8
  · subst h0
    exact fmul32Conditions_least s t m
  · rw [if_neg h0, beq_eq_false_iff_ne.mpr h0]
    by_cases h255 : e = 255#8
    · rw [h255]
      exact fmul32Conditions_infinity s _
    · exact fmul32Conditions_normalized s t m h0 h255

/-- The first multiplication of RM raises no condition: the sign value has mantissa 0. -/
theorem fmul32Conditions_signValue (s : BitVec 1) (e : BitVec 8) :
    fmul32Conditions (signDecoder s) (exponentDecoder e) = Conditions.none := by
  have h := fmul32Conditions_firstProduct ⟨0#1, e, 0#23⟩ s 0#23
  rw [← signDecoder_eq, fmul32Conditions_comm, show firstProductOf ⟨0#1, e, 0#23⟩ = exponentDecoder e from
    (exponentDecoder_eq e).symm] at h
  rw [BitVec.getLsbD_zero, Bool.and_false] at h
  exact h

/-! ### The statement -/

/-- Settles O53: ED contributes the overflow, the second multiplication of RM the underflow, MA and the first multiplication
nothing. -/
theorem ieeeConditionsArise : Obligations.IeeeConditionsArise := by
  unfold Obligations.IeeeConditionsArise
  intro S E M s
  refine ⟨settledOn (joinFields S E M), exec_decompose_eq _ s, ?_⟩
  have hacc := accumulatorConditions_wires M 23 le_rfl
  simp only [State.conditions, settledOn_k, settledOn_acc, settledOn_mantissa, settledOn_signValue,
    settledOn_exponentValue, settledOn_p, settledOn_mantissaValue, signOf_joinFields, exponentOf_joinFields,
    mantissaOf_joinFields, extractFields_joinFields, hacc, Conditions.none_or, fmul32Conditions_signValue,
    pow2Conditions_signedExponent, fmul32Conditions_firstProduct]
  simp [Conditions.or, Conditions.none]

end Sys2Proof.Machine
end
